-- ==== Sys2Proof/Word.lean ====
section
/-!
DEFINITION. The widths of the values the block works on (spec/00_scope.md R7, R8; spec/30_encoding.md
R70). Every one is an unsigned binary value with bit 0 the least significant; nothing is signed.
-/

namespace Sys2Proof

/-- A carrier or a fragment, `u64` (10_state.md R43). -/
abbrev Carrier := BitVec 64

/-- A value before pulse encoding, or a decoded value, `u32` (30_encoding.md R70, R74). -/
abbrev Value := BitVec 32

/-- A pulse pattern or a section mask, eight bits (30_encoding.md R80; 10_state.md R27). -/
abbrev Pattern := BitVec 8

/-- A bit position 0..63 in the carrier (00_scope.md R7). -/
abbrev BitPos := BitVec 6

/-- The active bit count as the `n` port holds it: 0..8, and 9..15 reserved (30_encoding.md R87). -/
abbrev Count := BitVec 4

/-- The five status flags as the `fl` and `r_fl` ports hold them (30_encoding.md R76). -/
abbrev FlagSet := BitVec 5

end Sys2Proof
end

