-- ==== Sys2Proof/Config.lean ====
section
/-!
DEFINITION. The configuration record `CFG` (spec/00_scope.md R6): what the source document does not
fix. It is chosen once, before the first transaction, and never changes (70_reset_and_hazards.md R181).
-/

namespace Sys2Proof

/-- `CFG` of 00_scope.md R6. The bounds are 32 bits wide because they become a descriptor's `max`
(10_state.md R27); the positions are carrier bit positions. -/
structure Cfg where
  maxDay     : Value
  maxDow     : Value
  maxMonth   : Value
  maxYear    : Value
  pposMinute : BitPos
  pposHour   : BitPos
  pposYear   : BitPos
  posStd     : BitPos
deriving DecidableEq, Repr

/-- `POS_STD`, the carrier position of the standard-time-active flag. FREE VALUE (log entry 6): the
spec leaves it open and gives no default (00_scope.md R6; 92_eei_decisions.md D10), so nothing in
Lean can evaluate this constant. -/
opaque Config.posStd : BitPos

/-- The defaults of 00_scope.md R6, with the open `POS_STD` left free. -/
def Cfg.defaults : Cfg where
  maxDay     := 31
  maxDow     := 7
  maxMonth   := 12
  maxYear    := 100
  pposMinute := 31
  pposHour   := 24
  pposYear   := 1
  posStd     := Config.posStd

/-- The ranges of 00_scope.md R6: `MAX_DAY` 1..46, `MAX_DOW` 1..8, `MAX_MONTH` 1..26, `MAX_YEAR`
1..166. The positions range over 0..63, which is their whole type. -/
def Cfg.inRange (c : Cfg) : Bool :=
  decide (1 ≤ c.maxDay ∧ c.maxDay ≤ 46) && decide (1 ≤ c.maxDow ∧ c.maxDow ≤ 8) &&
  decide (1 ≤ c.maxMonth ∧ c.maxMonth ≤ 26) && decide (1 ≤ c.maxYear ∧ c.maxYear ≤ 166)

end Sys2Proof
end

