-- ==== Sys2Proof/Syntax.lean ====
section
/-!
DEFINITION. The operations of the block with their operands (spec/30_encoding.md R71, R72), the
records the operands are made of, and the raw request ports they are decoded from (R70).
-/

namespace Sys2Proof

/-- The six catalog fields, in field-id order (10_state.md R45). -/
inductive Field where
  | minute | hour | day | dow | month | year
deriving DecidableEq, Repr

/-- The five status flags, in flag-index order (30_encoding.md R76). -/
inductive Flag where
  | antenna | dstAnnounce | dstActive | standardTime | leapAnnounce
deriving DecidableEq, Repr

/-- The six field values of FrameData (10_state.md R44), each a `u32`. -/
structure FieldValues where
  minute : Value
  hour   : Value
  day    : Value
  dow    : Value
  month  : Value
  year   : Value
deriving DecidableEq, Repr

/-- A section descriptor (10_state.md R27). `mask` is unshifted; `ppos` is an absolute carrier
position and is ignored when `pen` is false. -/
structure SectionDesc where
  mask : Pattern
  off  : BitPos
  pen  : Bool
  ppos : BitPos
  max  : Value
deriving DecidableEq, Repr

/-- One constructor per row of spec/opcode_table.json. -/
inductive Instr where
  /-- PENC, pulse encode (40_pulse_codec.md R100). -/
  | penc (val : Value) (n : Count)
  /-- PDEC, pulse decode (40_pulse_codec.md R101). -/
  | pdec (bits : Pattern) (n : Count)
  /-- SENC, section encode (41_section_codec.md R120). -/
  | senc (val : Value) (sec : SectionDesc)
  /-- SDEC, section decode (41_section_codec.md R125). -/
  | sdec (car : Carrier) (sec : SectionDesc)
  /-- FENC, frame encode (42_frame_codec.md R140). -/
  | fenc (dt : FieldValues) (fl : FlagSet)
  /-- FDEC, frame decode (42_frame_codec.md R144). -/
  | fdec (car : Carrier)
deriving DecidableEq, Repr

/-- The operand ports of a request, as the host drives them (30_encoding.md R70). -/
structure Request where
  op   : BitVec 3
  val  : Value
  n    : Count
  bits : Pattern
  car  : Carrier
  sec  : BitVec 53
  dt   : FieldValues
  fl   : FlagSet
deriving DecidableEq, Repr

end Sys2Proof
end

