-- ==== Sys2Proof/WellFormed.lean ====
section
/-!
DEFINITION. Which instructions are well-formed. The only operand the spec reserves values of is the
active bit count of PENC and PDEC (spec/30_encoding.md R87); descriptors that are not well-formed in
the sense of 10_state.md R31 are still legal operands (41_section_codec.md R126, R127), so they are not checked here.
-/

namespace Sys2Proof

/-- `n` is 0..8; 9..15 is reserved (30_encoding.md R87; 40_pulse_codec.md R109). -/
def Count.legal (n : Count) : Bool := decide (n ≤ 8)

/-- Well-formedness of an operation with its operands. -/
def Instr.wellFormed : Instr → Bool
  | .penc _ n => Count.legal n
  | .pdec _ n => Count.legal n
  | .senc _ _ => true
  | .sdec _ _ => true
  | .fenc _ _ => true
  | .fdec _   => true

end Sys2Proof
end

