-- ==== Sys2Proof/Decode.lean ====
section
/-!
DEFINITION. From the request ports to an operation, total on any bits, and back
(spec/30_encoding.md R70 to R73, R86, R87); and a request laid out as one number for the host's interface.
-/

namespace Sys2Proof

/-- Why a request is no operation. -/
inductive Reject where
  /-- `op` is 110 or 111 (30_encoding.md R86). -/
  | reservedOperation (op : BitVec 3)
  /-- `n` is 9..15 on PENC or PDEC (30_encoding.md R87). -/
  | reservedCount (n : Count)
deriving DecidableEq, Repr

/-! ## The descriptor port (30_encoding.md R73) -/

/-- `sec[7:0]` mask, `sec[13:8]` off, `sec[14]` pen, `sec[20:15]` ppos, `sec[52:21]` max. -/
def SectionDesc.unpack (p : BitVec 53) : SectionDesc where
  mask := p.extractLsb' 0 8
  off  := p.extractLsb' 8 6
  pen  := p.getLsbD 14
  ppos := p.extractLsb' 15 6
  max  := p.extractLsb' 21 32

/-- The descriptor packed low field first. -/
def SectionDesc.pack (d : SectionDesc) : BitVec 53 :=
  d.max ++ (d.ppos ++ (BitVec.ofBool d.pen ++ (d.off ++ d.mask)))

/-! ## The decoder (30_encoding.md R71, R72) -/

/-- An operation that takes the count `n` is refused when `n` is reserved (R87). -/
def withCount (n : Count) (i : Instr) : Except Reject Instr :=
  if Count.legal n then .ok i else .error (.reservedCount n)

/-- The operation a request asks for. Ports the operation does not read are ignored (R70). -/
def decode (r : Request) : Except Reject Instr :=
  match r.op.toNat with
  | 0 => withCount r.n (.penc r.val r.n)
  | 1 => withCount r.n (.pdec r.bits r.n)
  | 2 => .ok (.senc r.val (SectionDesc.unpack r.sec))
  | 3 => .ok (.sdec r.car (SectionDesc.unpack r.sec))
  | 4 => .ok (.fenc r.dt r.fl)
  | 5 => .ok (.fdec r.car)
  | _ => .error (.reservedOperation r.op)

/-! ## The encoder -/

/-- Every field value zero. -/
def FieldValues.zero : FieldValues := ⟨0, 0, 0, 0, 0, 0⟩

/-- Every operand port zero. -/
def Request.zero : Request := ⟨0, 0, 0, 0, 0, 0, FieldValues.zero, 0⟩

/-- The operation code of 30_encoding.md R71. -/
def opcode : Instr → BitVec 3
  | .penc _ _ => 0b000
  | .pdec _ _ => 0b001
  | .senc _ _ => 0b010
  | .sdec _ _ => 0b011
  | .fenc _ _ => 0b100
  | .fdec _   => 0b101

/-- The request that asks for an operation: the ports R72 lists carry the operands, the others 0. -/
def encode (i : Instr) : Request :=
  let r := { Request.zero with op := opcode i }
  match i with
  | .penc val n    => { r with val := val, n := n }
  | .pdec bits n   => { r with bits := bits, n := n }
  | .senc val sec  => { r with val := val, sec := sec.pack }
  | .sdec car sec  => { r with car := car, sec := sec.pack }
  | .fenc dt fl    => { r with dt := dt, fl := fl }
  | .fdec car      => { r with car := car }

/-! ## A request as one number

The ports are parallel and the spec packs no two of them together; the opcode table numbers the `op`
port's bits from 0. DESIGN CHOICE (log entry 2): the other ports follow in the order 30_encoding.md
R70 lists them, each with its bit 0 lowest, 361 bits in all. -/

/-- A value below the rest of a number. -/
def below {k : Nat} (x : BitVec k) (rest : Nat) : Nat := x.toNat + 2 ^ k * rest

/-- The number that stands for a request. -/
def Request.toWord (r : Request) : Nat :=
  below r.op <| below r.val <| below r.n <| below r.bits <| below r.car <| below r.sec <|
  below r.dt.minute <| below r.dt.hour <| below r.dt.day <| below r.dt.dow <| below r.dt.month <|
  below r.dt.year <| below r.fl 0

/-- The request a number stands for; bits from 361 up are ignored. -/
def Request.ofWord (w : Nat) : Request where
  op   := BitVec.ofNat 3 w
  val  := BitVec.ofNat 32 (w / 2 ^ 3)
  n    := BitVec.ofNat 4 (w / 2 ^ 3 / 2 ^ 32)
  bits := BitVec.ofNat 8 (w / 2 ^ 3 / 2 ^ 32 / 2 ^ 4)
  car  := BitVec.ofNat 64 (w / 2 ^ 3 / 2 ^ 32 / 2 ^ 4 / 2 ^ 8)
  sec  := BitVec.ofNat 53 (w / 2 ^ 3 / 2 ^ 32 / 2 ^ 4 / 2 ^ 8 / 2 ^ 64)
  dt   :=
    let u := w / 2 ^ 3 / 2 ^ 32 / 2 ^ 4 / 2 ^ 8 / 2 ^ 64 / 2 ^ 53
    { minute := BitVec.ofNat 32 u
      hour   := BitVec.ofNat 32 (u / 2 ^ 32)
      day    := BitVec.ofNat 32 (u / 2 ^ 32 / 2 ^ 32)
      dow    := BitVec.ofNat 32 (u / 2 ^ 32 / 2 ^ 32 / 2 ^ 32)
      month  := BitVec.ofNat 32 (u / 2 ^ 32 / 2 ^ 32 / 2 ^ 32 / 2 ^ 32)
      year   := BitVec.ofNat 32 (u / 2 ^ 32 / 2 ^ 32 / 2 ^ 32 / 2 ^ 32 / 2 ^ 32) }
  fl   := BitVec.ofNat 5
    (w / 2 ^ 3 / 2 ^ 32 / 2 ^ 4 / 2 ^ 8 / 2 ^ 64 / 2 ^ 53 / 2 ^ 32 / 2 ^ 32 / 2 ^ 32 / 2 ^ 32 /
      2 ^ 32 / 2 ^ 32)

/-- The request whose low `nbits` bits are those of `w` and whose other bits are 0. -/
def Request.ofTableWord (nbits w : Nat) : Request := Request.ofWord (w % 2 ^ nbits)

/-- The operation the decoder reads from a word numbered as spec/opcode_table.json numbers it. -/
def decodeTableWord (nbits w : Nat) : Option Instr :=
  match decode (Request.ofTableWord nbits w) with
  | .ok i    => some i
  | .error _ => none

end Sys2Proof
end

