-- ==== Sys2Proof/Machine/State.lean ====
section
/-!
DEFINITION. The machine's state as plain data. The block itself keeps no mutable state
(spec/10_state.md R20); what stands here is one transaction's request and response ports
(30_encoding.md R70) and the fixed configuration (00_scope.md R6). A step answers the request that
the operand ports hold (log entry 1).
-/

namespace Sys2Proof.Machine

/-- The error of a transaction (60_exceptions.md R160 to R162; 30_encoding.md R78). The field is
named by the frame operations only. A CodecError is a ParityError with its field. -/
inductive Error where
  | range  (f : Option Field)
  | parity (f : Option Field)
deriving DecidableEq, Repr

/-- The result of a transaction that succeeds (30_encoding.md R72). -/
inductive Result where
  /-- PENC drives `r_bits`. -/
  | pattern (bits : Pattern)
  /-- PDEC and SDEC drive `r_val`. -/
  | value (val : Value)
  /-- SENC and FENC drive `r_car`. -/
  | carrier (car : Carrier)
  /-- FDEC drives `r_dt.*` and `r_fl`. -/
  | frame (dt : FieldValues) (fl : FlagSet)
deriving DecidableEq, Repr

/-- A response: exactly one of a result and an error (00_scope.md R10). -/
abbrev Response := Except Error Result

/-- The result ports (30_encoding.md R70). -/
structure ResultPorts where
  ok     : Bool
  ekind  : BitVec 2
  efield : BitVec 3
  rBits  : Pattern
  rVal   : Value
  rCar   : Carrier
  rDt    : FieldValues
  rFl    : FlagSet
deriving DecidableEq, Repr

/-- Every result port 0, which is no response of any operation: `ok` is 0 and no error is named. -/
def ResultPorts.zero : ResultPorts := ⟨false, 0, 0, 0, 0, 0, FieldValues.zero, 0⟩

/-- The configuration, the operand ports and the result ports. -/
structure State where
  cfg : Cfg
  req : Request
  res : ResultPorts
deriving DecidableEq, Repr

/-- The block never faults: every error is a response (60_exceptions.md R163, R167;
93_implementation_defined.md, the last sentence of its section 1). No meaning raises a fault, so
this type has no constructor. -/
inductive Fault where
deriving DecidableEq, Repr

/-- Why no response is defined. -/
inductive Refusal where
  /-- Raised by an arm of `exec` for an instruction that has no meaning yet. Safe. -/
  | notModelled (mnemonic : String)
  /-- Raised by a step whose `op` port is 110 or 111 (30_encoding.md R86). Safe: no response exists. -/
  | reservedOperation
  /-- Raised by PENC and PDEC, and by a step that asks for them, when `n` is 9..15
  (30_encoding.md R87; 40_pulse_codec.md R109). Safe: no response exists. -/
  | reservedCount
deriving DecidableEq, Repr

/-- The state after reset. The block has nothing to reset (10_state.md R46): the configuration has
the spec's defaults with `POS_STD` free (log entries 5 and 6), and every port is 0, DESIGN CHOICE
(log entries 3 and 4). -/
def State.reset : State where
  cfg := Cfg.defaults
  req := Request.zero
  res := ResultPorts.zero

end Sys2Proof.Machine
end

