-- ==== Sys2Proof/Machine/Operands.lean ====
section
/-!
DEFINITION. What the operations read: the weight table, the section descriptor's derived masks, the
field catalog, the flag positions, and the items of a frame (spec/10_state.md, 20_memory.md).
-/

namespace Sys2Proof.Machine

/-! ## The weight table (10_state.md R25, R26) -/

/-- `W[0..7]` (R25). There is no ninth weight. -/
def weightTable : List Value := [1, 2, 4, 8, 10, 20, 40, 80]

/-- `W[i]`. Operations use `i < n ≤ 8` only (20_memory.md R63), so the value past the table is never
read (log entry 8). -/
def weight (i : Nat) : Value := weightTable.getD i 0

/-- `S(n)`, the sum of the first `n` weights (R26). -/
def weightSum (n : Nat) : Nat := ((weightTable.take n).map BitVec.toNat).sum

/-! ## Counting and single bits (00_scope.md R8) -/

/-- The number of 1 bits among the low `k` bits. -/
def onesBelow {w : Nat} (v : BitVec w) : Nat → Nat
  | 0     => 0
  | k + 1 => onesBelow v k + (v.getLsbD k).toNat

/-- `popcount(v)`. -/
def popcount {w : Nat} (v : BitVec w) : Nat := onesBelow v w

/-- `bit(p)`, the carrier with only bit `p` set. -/
def bit (p : BitPos) : Carrier := 1#64 <<< p.toNat

/-! ## Section descriptors (10_state.md R27 to R31) -/

/-- `n = popcount(sec.mask)` (R28). -/
def activeCount (d : SectionDesc) : Nat := popcount d.mask

/-- `zext_64(sec.mask) << sec.off`, truncated to 64 bits (R27; 00_scope.md R8). -/
def dataMask (d : SectionDesc) : Carrier := d.mask.setWidth 64 <<< d.off.toNat

/-- `pmask(sec)`, an absolute carrier mask (R29). -/
def parityMask (d : SectionDesc) : Carrier := if d.pen then bit d.ppos else 0

/-- `WF(sec)` (R31): a low-contiguous mask, a section inside the carrier, every in-range value
representable, the parity bit outside the data. -/
def wellFormedSection (d : SectionDesc) : Bool :=
  let n := activeCount d
  decide (d.mask.toNat = 2 ^ n - 1) &&
  decide (d.off.toNat + n ≤ 64) &&
  decide (d.max.toNat ≤ weightSum n + 1) &&
  (!d.pen || decide (d.ppos.toNat < d.off.toNat) || decide (d.off.toNat + n ≤ d.ppos.toNat))

/-! ## The field catalog (10_state.md R32 to R37) -/

/-- `CAT[f]` under a configuration. -/
def catalog (c : Cfg) : Field → SectionDesc
  | .minute => { mask := 0x7F, off := 32, pen := true,  ppos := c.pposMinute, max := 60 }
  | .hour   => { mask := 0x3F, off := 25, pen := true,  ppos := c.pposHour,   max := 24 }
  | .day    => { mask := 0x3F, off := 18, pen := false, ppos := 0,            max := c.maxDay }
  | .dow    => { mask := 0x07, off := 15, pen := false, ppos := 0,            max := c.maxDow }
  | .month  => { mask := 0x1F, off := 10, pen := false, ppos := 0,            max := c.maxMonth }
  | .year   => { mask := 0xFF, off := 2,  pen := true,  ppos := c.pposYear,   max := c.maxYear }

/-- The order in which the frame operations visit the fields (10_state.md R45). -/
def fieldOrder : List Field := [.minute, .hour, .day, .dow, .month, .year]

/-- The field id of 10_state.md R45. -/
def fieldId : Field → Nat
  | .minute => 0
  | .hour   => 1
  | .day    => 2
  | .dow    => 3
  | .month  => 4
  | .year   => 5

/-! ## The flag positions (10_state.md R38 to R42) -/

/-- `FPOS[k]` under a configuration. -/
def flagPos (c : Cfg) : Flag → BitPos
  | .antenna      => 44
  | .dstAnnounce  => 43
  | .dstActive    => 42
  | .standardTime => c.posStd
  | .leapAnnounce => 41

/-- The flag index on the `fl` and `r_fl` ports (30_encoding.md R76). -/
def flagIndex : Flag → Nat
  | .antenna      => 0
  | .dstAnnounce  => 1
  | .dstActive    => 2
  | .standardTime => 3
  | .leapAnnounce => 4

/-- The order in which the flags are visited (42_frame_codec.md R140, R144). -/
def flagOrder : List Flag := [.antenna, .dstAnnounce, .dstActive, .standardTime, .leapAnnounce]

/-! ## The items of a frame (42_frame_codec.md R141) -/

/-- `v[f]`, the projection of a date-time to the value of one field. -/
def fieldValue (dt : FieldValues) : Field → Value
  | .minute => dt.minute
  | .hour   => dt.hour
  | .day    => dt.day
  | .dow    => dt.dow
  | .month  => dt.month
  | .year   => dt.year

/-- A date-time with the value of one field replaced. -/
def setFieldValue (dt : FieldValues) (v : Value) : Field → FieldValues
  | .minute => { dt with minute := v }
  | .hour   => { dt with hour := v }
  | .day    => { dt with day := v }
  | .dow    => { dt with dow := v }
  | .month  => { dt with month := v }
  | .year   => { dt with year := v }

/-! ## Disjointness of a configuration's layout (20_memory.md R57) -/

/-- The carrier bits of the six sections and their parity bits, and of each flag in `flags`: one mask each. -/
def layout (c : Cfg) (flags : List Flag) : List Carrier :=
  fieldOrder.map (fun f => dataMask (catalog c f)) ++
  fieldOrder.map (fun f => parityMask (catalog c f)) ++
  flags.map (fun k => bit (flagPos c k))

/-- No two masks of the list share a bit. -/
def pairwiseDisjoint (masks : List Carrier) : Bool :=
  decide (masks.Pairwise fun a b => a &&& b = 0)

/-- The six data ranges, the enabled parity positions and the five flag positions are pairwise
disjoint (20_memory.md R57). -/
def disjointLayout (c : Cfg) : Bool := pairwiseDisjoint (layout c flagOrder)

end Sys2Proof.Machine
end

