-- ==== Sys2Proof/Machine/Flags.lean ====
section
/-!
DEFINITION. Every parity, flag and status computation of the block: the even-parity generator and
check (spec/41_section_codec.md R123, R129), the five status flags of a carrier
(42_frame_codec.md R143, R147) and the status codes of a response (30_encoding.md R77, R78).
-/

namespace Sys2Proof.Machine

/-! ## Parity -/

/-- `odd(popcount(v))`. -/
def oddOnes (v : Carrier) : Bool := popcount v % 2 == 1

/-- `par`: the parity bit of placed data, set when the data has an odd number of 1 bits (R123). -/
def parityBit (d : SectionDesc) (placed : Carrier) : Carrier :=
  if d.pen && oddOnes placed then bit d.ppos else 0

/-- The parity check of a section on a carrier fails (R129). -/
def parityFails (d : SectionDesc) (car : Carrier) : Bool :=
  d.pen && oddOnes ((car &&& dataMask d) ||| (car &&& parityMask d))

/-! ## The five status flags -/

/-- The carrier with the bit of each true flag set; a false flag sets and clears nothing (R143). -/
def insertFlags (c : Cfg) (fl : FlagSet) : List Flag → Carrier → Carrier
  | [],      car => car
  | k :: ks, car =>
    insertFlags c fl ks (if fl.getLsbD (flagIndex k) then car ||| bit (flagPos c k) else car)

/-- The flags read directly from the carrier, with no inversion (R147). -/
def readFlags (c : Cfg) (car : Carrier) : List Flag → FlagSet → FlagSet
  | [],      fl => fl
  | k :: ks, fl =>
    readFlags c car ks
      (if car.getLsbD (flagPos c k).toNat then fl ||| (1#5 <<< flagIndex k) else fl)

/-! ## Status codes (30_encoding.md R77, R78) -/

/-- `efield`: the field id, or 7 `NOFIELD`. -/
def efieldCode : Option Field → BitVec 3
  | none   => 7
  | some f => BitVec.ofNat 3 (fieldId f)

/-- `ekind` of an error: 01 `RANGE`, 10 `PARITY`. -/
def ekindCode : Error → BitVec 2
  | .range _  => 1
  | .parity _ => 2

/-- The field an error names. -/
def errorField : Error → Option Field
  | .range f  => f
  | .parity f => f

/-- An error of a section operation tagged with the field a frame operation was visiting
(42_frame_codec.md R142, R145). -/
def tagError (f : Field) : Error → Error
  | .range _  => .range (some f)
  | .parity _ => .parity (some f)

end Sys2Proof.Machine
end

