-- ==== Sys2Proof/Machine/Ops.lean ====
section
/-!
DEFINITION. The operations the meanings share: taking the request from the operand ports, placing a
pattern in a carrier and extracting it (spec/30_encoding.md R83), driving a result, and reporting an
error, which is what this block has in place of trap entry (60_exceptions.md R167).
-/

namespace Sys2Proof.Machine

/-- The request a step answers: what the operand ports hold (30_encoding.md R70). -/
def fetch (s : State) : Request := s.req

/-- The state with a request on its operand ports. -/
def present (s : State) (r : Request) : State := { s with req := r }

/-- The refusal of a request that is no operation (30_encoding.md R86, R87). -/
def refuse : Reject → Refusal
  | .reservedOperation _ => .reservedOperation
  | .reservedCount _     => .reservedCount

/-! ## Placement (30_encoding.md R83) -/

/-- `placed = (pulse << off) & (mask << off)` (41_section_codec.md R120 step 3). -/
def place (d : SectionDesc) (pulse : Pattern) : Carrier :=
  (pulse.setWidth 64 <<< d.off.toNat) &&& dataMask d

/-- `((car & (mask << off)) >> off)[7:0]` (41_section_codec.md R125 steps 1 and 3). -/
def extract (d : SectionDesc) (car : Carrier) : Pattern :=
  ((car &&& dataMask d) >>> d.off.toNat).setWidth 8

/-! ## Responses -/

/-- The result ports of a success: `ok` 1, `ekind` 00, `efield` 111, the result on its own ports and
every other result port 0 (30_encoding.md R78, R79). -/
def resultPorts (r : Result) : ResultPorts :=
  let p := { ResultPorts.zero with ok := true, efield := efieldCode none }
  match r with
  | .pattern b   => { p with rBits := b }
  | .value v     => { p with rVal := v }
  | .carrier c   => { p with rCar := c }
  | .frame dt fl => { p with rDt := dt, rFl := fl }

/-- The result ports of an error: `ok` 0, its codes, every result port 0 (30_encoding.md R78, R79). -/
def errorPorts (e : Error) : ResultPorts :=
  { ResultPorts.zero with ekind := ekindCode e, efield := efieldCode (errorField e) }

/-- A transaction ends in a result. -/
def drive (s : State) (r : Result) : State := { s with res := resultPorts r }

/-- A transaction ends in an error (60_exceptions.md R167): no state is saved, no mode changes, no
control goes anywhere; the response carries the error. There is no return from it (R169). -/
def reportError (s : State) (e : Error) : State := { s with res := errorPorts e }

/-- The state in which a transaction has its response. -/
def answer (s : State) : Response → State
  | .ok r    => drive s r
  | .error e => reportError s e

end Sys2Proof.Machine
end

