-- ==== Sys2Proof/Machine/Pulse.lean ====
section
/-!
DEFINITION. The pulse codec: PENC and PDEC (spec/40_pulse_codec.md R100, R101).
-/

namespace Sys2Proof.Machine

/-- The loop of R100, `i` going down from the given count: subtract a weight and set its bit
whenever the remainder reaches it. The remainder left at the end is discarded. -/
def pulseEncodeFrom : Nat → Value → Pattern → Pattern
  | 0,     _,   bits => bits
  | i + 1, rem, bits =>
    if weight i ≤ rem then pulseEncodeFrom i (rem - weight i) (bits ||| (1#8 <<< i))
    else pulseEncodeFrom i rem bits

/-- `PENC(val, n)` for `n ≤ 8` (R100). -/
def pulseEncode (val : Value) (n : Nat) : Pattern := pulseEncodeFrom n val 0#8

/-- The loop of R101, `i` going down from the given count: add the weight of each set bit. -/
def pulseDecodeFrom : Nat → Pattern → Value → Value
  | 0,     _,    sum => sum
  | i + 1, bits, sum => pulseDecodeFrom i bits (if bits.getLsbD i then sum + weight i else sum)

/-- `PDEC(bits, n)` for `n ≤ 8` (R101). -/
def pulseDecode (bits : Pattern) (n : Nat) : Value := pulseDecodeFrom n bits 0#32

/-- PENC (R100). A reserved count is refused (R109). -/
def execPenc (val : Value) (n : Count) (s : State) : Host.Outcome State Fault Refusal :=
  if Count.legal n then .next (answer s (.ok (.pattern (pulseEncode val n.toNat))))
  else .refused .reservedCount

/-- PDEC (R101). A reserved count is refused (R109). -/
def execPdec (bits : Pattern) (n : Count) (s : State) : Host.Outcome State Fault Refusal :=
  if Count.legal n then .next (answer s (.ok (.value (pulseDecode bits n.toNat))))
  else .refused .reservedCount

end Sys2Proof.Machine
end

