-- ==== Sys2Proof/Machine/SectionCodec.lean ====
section
/-!
DEFINITION. The section codec: SENC and SDEC (spec/41_section_codec.md R120, R125). The formulas are
applied as written to every descriptor, well-formed or not (R126, R127).
-/

namespace Sys2Proof.Machine

/-- `SENC(val, sec)` (R120): the range check first, then the placed pattern with its parity bit. -/
def sectionEncode (val : Value) (d : SectionDesc) : Except Error Carrier :=
  if d.max ≤ val then .error (.range none)
  else
    let placed := place d (pulseEncode val (activeCount d))
    .ok (placed ||| parityBit d placed)

/-- `SDEC(car, sec)` (R125): the parity check first, then the value, with no range check (R130). -/
def sectionDecode (car : Carrier) (d : SectionDesc) : Except Error Value :=
  if parityFails d car then .error (.parity none)
  else .ok (pulseDecode (extract d car) (activeCount d))

/-- SENC (R120). -/
def execSenc (val : Value) (d : SectionDesc) (s : State) : Host.Outcome State Fault Refusal :=
  .next (answer s ((sectionEncode val d).map Result.carrier))

/-- SDEC (R125). -/
def execSdec (car : Carrier) (d : SectionDesc) (s : State) : Host.Outcome State Fault Refusal :=
  .next (answer s ((sectionDecode car d).map Result.value))

end Sys2Proof.Machine
end

