-- ==== Sys2Proof/Machine/Frame.lean ====
section
/-!
DEFINITION. The frame assembler: FENC and FDEC (spec/42_frame_codec.md R140, R144).
-/

namespace Sys2Proof.Machine

/-- The fields in order, each fragment ORed in; the first RangeError ends it and names its field (R142). -/
def encodeFields (c : Cfg) (dt : FieldValues) : List Field → Carrier → Except Error Carrier
  | [],      car => .ok car
  | f :: fs, car =>
    match sectionEncode (fieldValue dt f) (catalog c f) with
    | .error e => .error (tagError f e)
    | .ok frag => encodeFields c dt fs (car ||| frag)

/-- The fields in order; the first ParityError ends it as a CodecError that names its field (R145). -/
def decodeFields (c : Cfg) (car : Carrier) : List Field → FieldValues → Except Error FieldValues
  | [],      dt => .ok dt
  | f :: fs, dt =>
    match sectionDecode car (catalog c f) with
    | .error e => .error (tagError f e)
    | .ok v    => decodeFields c car fs (setFieldValue dt v f)

/-- `FENC(dt, fl)` (R140): the six fragments, then the flags. -/
def frameEncode (c : Cfg) (dt : FieldValues) (fl : FlagSet) : Except Error Carrier :=
  (encodeFields c dt fieldOrder 0#64).map (insertFlags c fl flagOrder)

/-- `FDEC(car)` (R144): the six values, then the flags. -/
def frameDecode (c : Cfg) (car : Carrier) : Except Error (FieldValues × FlagSet) :=
  (decodeFields c car fieldOrder FieldValues.zero).map
    fun dt => (dt, readFlags c car flagOrder 0#5)

/-- FENC (R140). -/
def execFenc (dt : FieldValues) (fl : FlagSet) (s : State) : Host.Outcome State Fault Refusal :=
  .next (answer s ((frameEncode s.cfg dt fl).map Result.carrier))

/-- FDEC (R144). -/
def execFdec (car : Carrier) (s : State) : Host.Outcome State Fault Refusal :=
  .next (answer s ((frameDecode s.cfg car).map fun r => Result.frame r.1 r.2))

end Sys2Proof.Machine
end

