-- ==== Sys2Proof/Machine/Dispatch.lean ====
section
/-!
DEFINITION. One arm per operation of spec/opcode_table.json.
-/

namespace Sys2Proof.Machine

-- Each arm is one direct call of the operation's meaning.
def exec (i : Instr) (s : State) : Host.Outcome State Fault Refusal :=
  match i with
  | .penc val n => Sys2Proof.Machine.execPenc val n s
  | .pdec bits n => Sys2Proof.Machine.execPdec bits n s
  | .senc val d => Sys2Proof.Machine.execSenc val d s
  | .sdec car d => Sys2Proof.Machine.execSdec car d s
  | .fenc dt fl => Sys2Proof.Machine.execFenc dt fl s
  | .fdec car => Sys2Proof.Machine.execFdec car s

end Sys2Proof.Machine
end

