-- ==== Sys2Proof/Machine/Step.lean ====
section
/-!
DEFINITION. One step is one transaction (spec/00_scope.md R4): decode the request on the operand
ports and answer it.
-/

namespace Sys2Proof.Machine

/-- One transaction. -/
def step (s : State) : Host.Outcome State Fault Refusal :=
  match decode (fetch s) with
  | .ok i    => exec i s
  | .error e => .refused (refuse e)

/-- The state in which the host presents the request of a word numbered as the opcode table numbers
it, every other operand bit 0 (log entries 2 and 7). -/
def State.withFetchWord (s : State) (nbits w : Nat) : State :=
  present s (Request.ofTableWord nbits w)

end Sys2Proof.Machine
end

