-- ==== Sys2Proof/Safety.lean ====
section
/-!
DEFINITION. What claims about the machine are stated in: the spec's printed tables written out again
apart from the meanings, the two forms of a response at the ports, the bits a section owns, and the
invariant of a machine state.
-/

namespace Sys2Proof.Machine

/-! ## The printed tables and counts -/

/-- The weight table as 10_state.md R25 prints it. -/
def printedWeight (i : Nat) : Nat := ([1, 2, 4, 8, 10, 20, 40, 80] : List Nat).getD i 0

/-- `S(n)` as 10_state.md R26 prints it. -/
def printedSum (n : Nat) : Nat := ([0, 1, 3, 7, 15, 25, 45, 85, 165] : List Nat).getD n 0

/-- The weights of the set bits among the low `n` bits, summed (40_pulse_codec.md R101). -/
def patternValue (b : Pattern) (n : Nat) : Nat :=
  ((List.range n).map fun i => if b.getLsbD i then printedWeight i else 0).sum

/-- The weights already taken when a greedy encoder with `n` weights, largest first, comes to `i`. -/
def takenAbove (b : Pattern) (i n : Nat) : Nat :=
  ((List.range n).map fun j => if i < j ∧ b.getLsbD j then printedWeight j else 0).sum

/-- `b` is what greedy subtraction of the first `n` weights from `v`, largest first, sets
(40_pulse_codec.md R100): a bit is set exactly when the remaining value reaches its weight, and no
bit `n` or above is set. -/
def IsGreedyPattern (v n : Nat) (b : Pattern) : Prop :=
  (∀ i, n ≤ i → b.getLsbD i = false) ∧
  ∀ i, i < n → (b.getLsbD i = true ↔ takenAbove b i n + printedWeight i ≤ v)

/-- The number of set bits. -/
def bitCount {w : Nat} (v : BitVec w) : Nat := ((List.range w).filter fun i => v.getLsbD i).length

/-! ## Responses at the ports -/

/-- The ports of a success, before its result is driven (30_encoding.md R78, R79; the spec's
decisions D4 and D5 of 92_eei_decisions.md). -/
def succeeded : ResultPorts := ⟨true, 0b00, 0b111, 0, 0, 0, ⟨0, 0, 0, 0, 0, 0⟩, 0⟩

/-- The ports of an error with its codes (30_encoding.md R78, R79; decisions D4 and D5). -/
def failed (kind : BitVec 2) (field : BitVec 3) : ResultPorts :=
  ⟨false, kind, field, 0, 0, 0, ⟨0, 0, 0, 0, 0, 0⟩, 0⟩

/-- `exec` of the operation completes with these result ports and changes nothing else. -/
def Answers (i : Instr) (s : State) (p : ResultPorts) : Prop :=
  exec i s = .next { s with res := p }

/-- A step that presents the request completes with these result ports and changes nothing else. -/
def StepAnswers (r : Request) (s : State) (p : ResultPorts) : Prop :=
  step { s with req := r } = .next { s with req := r, res := p }

/-! ## The bits of a section (10_state.md R27, R29) -/

/-- Carrier position `p` holds a data bit of the section. -/
def IsDataBit (d : SectionDesc) (p : Nat) : Prop :=
  d.off.toNat ≤ p ∧ d.mask.getLsbD (p - d.off.toNat) = true

/-- Carrier position `p` holds the parity bit of the section. -/
def IsParityBit (d : SectionDesc) (p : Nat) : Prop := d.pen = true ∧ p = d.ppos.toNat

/-- The packed descriptor of 30_encoding.md R73. -/
def IsPacked (w : BitVec 53) (d : SectionDesc) : Prop :=
  w.extractLsb' 0 8 = d.mask ∧ w.extractLsb' 8 6 = d.off ∧ w.getLsbD 14 = d.pen ∧
  w.extractLsb' 15 6 = d.ppos ∧ w.extractLsb' 21 32 = d.max

/-- The carrier with the bits of the true flags, at the positions of 10_state.md R38 to R42. -/
def flagBits (c : Cfg) (fl : FlagSet) : Carrier :=
  (if fl.getLsbD 0 then 1#64 <<< 44 else 0) ||| (if fl.getLsbD 1 then 1#64 <<< 43 else 0) |||
  (if fl.getLsbD 2 then 1#64 <<< 42 else 0) |||
  (if fl.getLsbD 3 then 1#64 <<< c.posStd.toNat else 0) |||
  (if fl.getLsbD 4 then 1#64 <<< 41 else 0)

/-- Every bit a frame can set or a frame decode can read (42_frame_codec.md R151). -/
def frameBits (c : Cfg) : Carrier := (layout c flagOrder).foldl (· ||| ·) 0

/-- The number of weights in use of a catalog section (10_state.md R32 to R37). -/
def fieldWidth : Field → Nat
  | .minute => 7
  | .hour   => 6
  | .day    => 6
  | .dow    => 3
  | .month  => 5
  | .year   => 8

/-! ## The invariant -/

/-- The status triple is a row of 30_encoding.md R78, or the reset value of log entry 4. -/
def statusLegal (p : ResultPorts) : Bool :=
  (p.ok && decide (p.ekind = 0 ∧ p.efield = 7)) ||
  (!p.ok && decide ((p.ekind = 1 ∨ p.ekind = 2) ∧ p.efield ≠ 6)) ||
  decide (p = ResultPorts.zero)

/-- A response without `ok` shows no result (30_encoding.md R79; 60_exceptions.md R168). -/
def noPartialResult (p : ResultPorts) : Bool :=
  p.ok || decide (p.rBits = 0 ∧ p.rVal = 0 ∧ p.rCar = 0 ∧ p.rDt = FieldValues.zero ∧ p.rFl = 0)

/-- Every decoded value is one some pattern of its width stands for (40_pulse_codec.md R103). -/
def valuesRepresentable (p : ResultPorts) : Bool :=
  decide (p.rVal.toNat ≤ 165) &&
  fieldOrder.all fun f => decide ((fieldValue p.rDt f).toNat ≤ printedSum (fieldWidth f))

/-- The invariant of a machine state: the configuration is in the ranges of 00_scope.md R6, and the
result ports show a response that some transaction can have, or their reset value. -/
def State.inv (s : State) : Bool :=
  s.cfg.inRange && statusLegal s.res && noPartialResult s.res && valuesRepresentable s.res

end Sys2Proof.Machine
end

