-- ==== Sys2Proof/Certificates/Slice0/Obligations.lean ====
section
/-!
DEFINITION. The statements for the provers, in the order of OBLIGATIONS.json. A statement about every
state holds at every configuration, `POS_STD` included, unless it says otherwise. `Answers` and
`StepAnswers` say that a transaction completes with the named result ports and leaves the operand
ports and the configuration as they were; a result port that is not named is 0 (30_encoding.md R79,
the spec's decision D5).
-/

open Sys2Proof Sys2Proof.Machine

/-! ## Requests, operation codes, reserved encodings -/

/-- A step answers the request on the operand ports by the operation it decodes to (00_scope.md R4,
the spec's decision D1; that the request stands in State is the model's choice, log entry 1), and a
request that decodes to nothing is refused (30_encoding.md R86, R87, the spec's decisions D12 and D13,
log entry 10). -/
def Obligations.StepRunsTheDecodedOperation : Prop :=
  ∀ s : State,
    (∀ i, decode s.req = .ok i → step s = exec i s) ∧
    (∀ e, decode s.req = .error e → step s = .refused (refuse e))

/-- The operation codes of 30_encoding.md R71 with the operand ports of R72 and the descriptor slices
of R73 (the spec's decisions D2, D3, D6). -/
def Obligations.OperationCodesSelectOperations : Prop :=
  ∀ (r : Request) (d : SectionDesc), IsPacked r.sec d →
    (r.op = 0b000 → r.n ≤ 8 → decode r = .ok (.penc r.val r.n)) ∧
    (r.op = 0b001 → r.n ≤ 8 → decode r = .ok (.pdec r.bits r.n)) ∧
    (r.op = 0b010 → decode r = .ok (.senc r.val d)) ∧
    (r.op = 0b011 → decode r = .ok (.sdec r.car d)) ∧
    (r.op = 0b100 → decode r = .ok (.fenc r.dt r.fl)) ∧
    (r.op = 0b101 → decode r = .ok (.fdec r.car))

/-- Requests of 95_test_vectors.md section 4, written out bit by bit, decode to what they stand for. -/
def Obligations.WrittenRequestsDecode : Prop :=
  decode { Request.zero with op := 0b000, val := 0x18, n := 0b0111 } = .ok (.penc 24 7) ∧
  decode { Request.zero with op := 0b001, bits := 0x1E, n := 0b0111 } = .ok (.pdec 0x1E 7) ∧
  decode { Request.zero with op := 0b010, val := 0x1E, sec := 0x000000078FE07F } =
    .ok (.senc 30 ⟨0x7F, 32, true, 31, 60⟩) ∧
  decode { Request.zero with op := 0b011, car := 0x0000113024919940, sec := 0x0000000C80C2FF } =
    .ok (.sdec 0x0000113024919940 ⟨0xFF, 2, true, 1, 100⟩) ∧
  decode { Request.zero with op := 0b100, dt := ⟨0x1E, 0x0C, 0x18, 0x03, 0x06, 0x32⟩, fl := 0b01001 } =
    .ok (.fenc ⟨30, 12, 24, 3, 6, 50⟩ 0b01001) ∧
  decode { Request.zero with op := 0b101, car := 0x0000113024919940 } = .ok (.fdec 0x0000113024919940)

/-- The operation codes 110 and 111 are refused whatever the other operands (30_encoding.md R86, the
spec's decision D13). -/
def Obligations.ReservedOperationCodesAreRefused : Prop :=
  ∀ (s : State) (r : Request), r.op = 0b110 ∨ r.op = 0b111 →
    step { s with req := r } = .refused .reservedOperation

/-- PENC and PDEC with `n` 9..15 are refused (30_encoding.md R87, 40_pulse_codec.md R109, the spec's
decision D12). -/
def Obligations.ReservedCountsAreRefused : Prop :=
  ∀ (s : State) (r : Request), 9 ≤ r.n →
    (r.op = 0b000 ∨ r.op = 0b001 → step { s with req := r } = .refused .reservedCount) ∧
    exec (.penc r.val r.n) s = .refused .reservedCount ∧
    exec (.pdec r.bits r.n) s = .refused .reservedCount

/-- Decoding the encoding of a well-formed operation gives it back, from the ports and from the
request written as one number (the number's layout is the model's own, log entry 2). -/
def Obligations.DecodeOfEncode : Prop :=
  ∀ i : Instr, i.wellFormed = true →
    decode (encode i) = .ok i ∧ decodeTableWord 361 (encode i).toWord = some i

/-- A decoded operation is well-formed, and its encoding has the request's operation code. -/
def Obligations.DecodedOperationsAreWellFormed : Prop :=
  ∀ (r : Request) (i : Instr), decode r = .ok i → i.wellFormed = true ∧ (encode i).op = r.op

/-- An operation reads only the operand ports 30_encoding.md R72 lists for it: two requests that agree
on those get the same response (R70, the spec's decision D2). -/
def Obligations.UnlistedOperandPortsAreIgnored : Prop :=
  ∀ (s : State) (r r' : Request) (p : ResultPorts), r.op = r'.op →
    (r.op = 0b000 → r.val = r'.val ∧ r.n = r'.n) →
    (r.op = 0b001 → r.bits = r'.bits ∧ r.n = r'.n) →
    (r.op = 0b010 → r.val = r'.val ∧ r.sec = r'.sec) →
    (r.op = 0b011 → r.car = r'.car ∧ r.sec = r'.sec) →
    (r.op = 0b100 → r.dt = r'.dt ∧ r.fl = r'.fl) →
    (r.op = 0b101 → r.car = r'.car) →
    (StepAnswers r s p ↔ StepAnswers r' s p)

/-! ## The pulse codec -/

/-- PENC (40_pulse_codec.md R100): operation code 000, greedy subtraction of the first `n` weights,
largest first, no error for any value. -/
def Obligations.PencSubtractsGreedily : Prop :=
  ∀ (s : State) (r : Request), r.op = 0b000 → r.n ≤ 8 →
    ∃ b : Pattern,
      StepAnswers r s { succeeded with rBits := b } ∧
      Answers (.penc r.val r.n) s { succeeded with rBits := b } ∧
      IsGreedyPattern r.val.toNat r.n.toNat b

/-- PDEC (40_pulse_codec.md R101): operation code 001, the sum of the weights whose bits are set among
the low `n`, at most 165, no error for any pattern. -/
def Obligations.PdecSumsTheSetWeights : Prop :=
  ∀ (s : State) (r : Request), r.op = 0b001 → r.n ≤ 8 →
    ∃ v : Value,
      StepAnswers r s { succeeded with rVal := v } ∧
      Answers (.pdec r.bits r.n) s { succeeded with rVal := v } ∧
      v.toNat = patternValue r.bits r.n.toNat ∧ v.toNat ≤ 165

/-- `PDEC(PENC(v, n), n) = v` for every `v` up to `S(n)` (40_pulse_codec.md R102). -/
def Obligations.PulseRoundTrip : Prop :=
  ∀ (s : State) (v : Value) (n : Count), n ≤ 8 → v.toNat ≤ printedSum n.toNat →
    ∃ b : Pattern,
      Answers (.penc v n) s { succeeded with rBits := b } ∧
      Answers (.pdec b n) s { succeeded with rVal := v }

/-- The values PDEC can return with `n` active bits are exactly 0 .. `S(n)` (40_pulse_codec.md R103,
derived there). -/
def Obligations.RepresentableValues : Prop :=
  ∀ (s : State) (v : Value) (n : Count), n ≤ 8 →
    ((∃ b : Pattern, Answers (.pdec b n) s { succeeded with rVal := v }) ↔
      v.toNat ≤ printedSum n.toNat)

/-- Above `S(n)` PENC sets all `n` bits, and decoding them gives `S(n)` (40_pulse_codec.md R104,
derived there). -/
def Obligations.PencSaturates : Prop :=
  ∀ (s : State) (v : Value) (n : Count), n ≤ 8 → printedSum n.toNat < v.toNat →
    Answers (.penc v n) s { succeeded with rBits := BitVec.ofNat 8 (2 ^ n.toNat - 1) } ∧
    Answers (.pdec (BitVec.ofNat 8 (2 ^ n.toNat - 1)) n) s
      { succeeded with rVal := BitVec.ofNat 32 (printedSum n.toNat) }

/-- With no active bits the pattern and the value are 0 (40_pulse_codec.md R105). -/
def Obligations.NoActiveBits : Prop :=
  ∀ (s : State) (v : Value) (b : Pattern),
    Answers (.penc v 0) s { succeeded with rBits := 0 } ∧
    Answers (.pdec b 0) s { succeeded with rVal := 0 }

/-- The closed form of the canonical pattern (30_encoding.md R81, derived there): plain binary up to
four bits, otherwise a tens digit capped at `T` over a low part. -/
def Obligations.CanonicalPatternClosedForm : Prop :=
  ∀ (s : State) (v : Value) (n : Count), n ≤ 8 → v.toNat ≤ printedSum n.toNat →
    (n ≤ 4 → Answers (.penc v n) s { succeeded with rBits := BitVec.ofNat 8 v.toNat }) ∧
    (5 ≤ n →
      let t := min (2 ^ (n.toNat - 4) - 1) (v.toNat / 10)
      v.toNat - 10 * t ≤ 15 ∧
      Answers (.penc v n) s { succeeded with rBits := BitVec.ofNat 8 (16 * t + (v.toNat - 10 * t)) })

/-- PDEC does not read pattern bits `n` and above (40_pulse_codec.md R108, derived there). -/
def Obligations.PdecIgnoresInactiveBits : Prop :=
  ∀ (s : State) (n : Count) (a b : Pattern),
    (∀ i < n.toNat, a.getLsbD i = b.getLsbD i) → exec (.pdec a n) s = exec (.pdec b n) s

/-- Up to four active bits PDEC is plain binary on them (40_pulse_codec.md R107, derived there). -/
def Obligations.SmallCountsDecodeInBinary : Prop :=
  ∀ (s : State) (b : Pattern) (n : Count), n ≤ 4 →
    Answers (.pdec b n) s { succeeded with rVal := BitVec.ofNat 32 (b.toNat % 2 ^ n.toNat) }

/-- Decoding is not injective (40_pulse_codec.md R106, derived there): 0x0A and 0x10 both decode to 10
with eight active bits, and PENC gives 0x10. -/
def Obligations.PdecAcceptsNonCanonicalPatterns : Prop :=
  ∀ s : State,
    Answers (.pdec 0x0A 8) s { succeeded with rVal := 10 } ∧
    Answers (.pdec 0x10 8) s { succeeded with rVal := 10 } ∧
    Answers (.penc 10 8) s { succeeded with rBits := 0x10 }

/-! ## The section codec -/

/-- SENC (41_section_codec.md R120), for every descriptor, well-formed or not (R126, the spec's decision
D14), packed on `sec` as 30_encoding.md R73 says (decision D6): operation code 010; a value at or above
`max` is a RangeError; any other value gives the placed pulse pattern of `popcount(mask)` weights with,
where the section has a parity bit, that bit set when the placed data has an odd number of 1 bits; the
placed data is stated bit by bit. -/
def Obligations.SencPlacesPatternAndParity : Prop :=
  ∀ (s : State) (r : Request) (d : SectionDesc), r.op = 0b010 → IsPacked r.sec d →
    (d.max ≤ r.val →
      StepAnswers r s (failed 0b01 0b111) ∧ Answers (.senc r.val d) s (failed 0b01 0b111)) ∧
    (r.val < d.max →
      ∃ pulse : Pattern, ∃ placed : Carrier,
        IsGreedyPattern r.val.toNat (bitCount d.mask) pulse ∧
        (∀ p < 64, placed.getLsbD p = true ↔
          IsDataBit d p ∧ pulse.getLsbD (p - d.off.toNat) = true) ∧
        (let fragment := placed |||
            (if d.pen = true ∧ bitCount placed % 2 = 1 then 1#64 <<< d.ppos.toNat else 0)
         StepAnswers r s { succeeded with rCar := fragment } ∧
         Answers (.senc r.val d) s { succeeded with rCar := fragment }))

/-- The range check is exclusive, unsigned over all 32 bits, and the only check of SENC
(41_section_codec.md R121, R133). -/
def Obligations.RangeCheckIsExclusive : Prop :=
  ∀ (s : State) (d : SectionDesc),
    (∀ v : Value, d.max.toNat ≤ v.toNat → Answers (.senc v d) s (failed 0b01 0b111)) ∧
    (∀ v : Value, v.toNat < d.max.toNat →
      ∃ fragment : Carrier, Answers (.senc v d) s { succeeded with rCar := fragment }) ∧
    Answers (.senc d.max d) s (failed 0b01 0b111) ∧
    (1 ≤ d.max →
      ∃ fragment : Carrier, Answers (.senc (d.max - 1) d) s { succeeded with rCar := fragment })

/-- The parity bit of a well-formed section (41_section_codec.md R123; 30_encoding.md R84): with
`pen` it is 1 exactly when the data bits hold an odd number of ones, so that data and parity bit
together hold an even number; without, no bit is added and `ppos` does not matter. -/
def Obligations.FragmentParityIsEven : Prop :=
  ∀ (s : State) (d : SectionDesc) (v : Value) (x : Carrier), wellFormedSection d = true →
    Answers (.senc v d) s { succeeded with rCar := x } →
    (d.pen = true →
      (x.getLsbD d.ppos.toNat = true ↔ bitCount (x &&& dataMask d) % 2 = 1) ∧
      bitCount (x &&& (dataMask d ||| parityMask d)) % 2 = 0) ∧
    (d.pen = false →
      x &&& dataMask d = x ∧
      ∀ q : BitPos, Answers (.senc v { d with ppos := q }) s { succeeded with rCar := x })

/-- A fragment has no 1 bit outside its section (41_section_codec.md R124, derived there). -/
def Obligations.FragmentStaysInItsSection : Prop :=
  ∀ (s : State) (d : SectionDesc) (v : Value) (x : Carrier),
    Answers (.senc v d) s { succeeded with rCar := x } →
    ∀ p, x.getLsbD p = true → IsDataBit d p ∨ IsParityBit d p

/-- SDEC (41_section_codec.md R125, R128, R129), for every descriptor, well-formed or not (R127, the
spec's decision D14), packed on `sec` as 30_encoding.md R73 says (decision D6): operation code 011; a
ParityError when the section has a parity bit and its data bits and parity bit together hold an odd
number of ones; otherwise the value of the extracted pattern under `popcount(mask)` weights. -/
def Obligations.SdecChecksParityThenDecodes : Prop :=
  ∀ (s : State) (r : Request) (d : SectionDesc) (data pattern : BitVec 64), r.op = 0b011 →
    IsPacked r.sec d →
    (∀ p < 64, data.getLsbD p = true ↔ IsDataBit d p ∧ r.car.getLsbD p = true) →
    pattern = data >>> d.off.toNat →
    pattern.toNat < 2 ^ 8 ∧
    (let withParity := data |||
        (if d.pen = true ∧ r.car.getLsbD d.ppos.toNat = true then 1#64 <<< d.ppos.toNat else 0)
     (d.pen = true ∧ bitCount withParity % 2 = 1 →
       StepAnswers r s (failed 0b10 0b111) ∧ Answers (.sdec r.car d) s (failed 0b10 0b111)) ∧
     (¬(d.pen = true ∧ bitCount withParity % 2 = 1) →
       ∃ v : Value, v.toNat = patternValue (pattern.setWidth 8) (bitCount d.mask) ∧
         v.toNat ≤ 165 ∧ StepAnswers r s { succeeded with rVal := v } ∧
         Answers (.sdec r.car d) s { succeeded with rVal := v }))

/-- SDEC reads the carrier only through the section's data and parity bits (41_section_codec.md R134,
derived there). -/
def Obligations.SdecReadsOnlyItsSection : Prop :=
  ∀ (s : State) (d : SectionDesc) (a b : Carrier),
    (∀ p < 64, IsDataBit d p ∨ IsParityBit d p → a.getLsbD p = b.getLsbD p) →
    exec (.sdec a d) s = exec (.sdec b d) s

/-- SDEC has no range check (41_section_codec.md R130): `max` does not matter, no carrier gives a
RangeError, every value 0 .. `S(n)` is returned by some carrier, at or above `max` or not (for each
catalog section this is the range R130 lists), and every pattern, canonical or not, decodes to its
value once its parity is even. -/
def Obligations.SdecHasNoRangeCheck : Prop :=
  ∀ (s : State) (d : SectionDesc),
    (∀ (c : Carrier) (m : Value), exec (.sdec c { d with max := m }) s = exec (.sdec c d) s) ∧
    (∀ (c : Carrier) (f : BitVec 3), ¬Answers (.sdec c d) s (failed 0b01 f)) ∧
    (wellFormedSection d = true →
      (∀ v : Value, v.toNat ≤ printedSum (bitCount d.mask) →
        ∃ c : Carrier, Answers (.sdec c d) s { succeeded with rVal := v }) ∧
      (∀ b : Pattern, ∃ parity : Bool,
        Answers (.sdec (((b &&& d.mask).setWidth 64 <<< d.off.toNat) |||
            (if d.pen && parity then 1#64 <<< d.ppos.toNat else 0)) d) s
          { succeeded with rVal := BitVec.ofNat 32 (patternValue b (bitCount d.mask)) })) ∧
    (∀ f : Field, bitCount (catalog s.cfg f).mask = fieldWidth f)

/-- The round trip of a well-formed section in a carrier whose other bits are anything
(41_section_codec.md R131, derived there from the source's statement for a clean carrier). -/
def Obligations.SectionRoundTrip : Prop :=
  ∀ (s : State) (d : SectionDesc) (v : Value) (x : Carrier), wellFormedSection d = true → v < d.max →
    (∀ p < 64, IsDataBit d p ∨ IsParityBit d p → x.getLsbD p = false) →
    ∃ fragment : Carrier,
      Answers (.senc v d) s { succeeded with rCar := fragment } ∧
      Answers (.sdec (fragment ||| x) d) s { succeeded with rVal := v }

/-- Flipping an odd number of the section's bits of an accepted carrier is a ParityError; flipping an
even number is accepted and gives the value of the resulting pattern (41_section_codec.md R132, the
even case derived there). -/
def Obligations.ParityDetectsOddFlips : Prop :=
  ∀ (s : State) (d : SectionDesc) (c flips : Carrier) (v : Value), wellFormedSection d = true →
    d.pen = true → Answers (.sdec c d) s { succeeded with rVal := v } →
    (∀ p, flips.getLsbD p = true → IsDataBit d p ∨ IsParityBit d p) →
    (bitCount flips % 2 = 1 → Answers (.sdec (c ^^^ flips) d) s (failed 0b10 0b111)) ∧
    (bitCount flips % 2 = 0 →
      Answers (.sdec (c ^^^ flips) d) s
        { succeeded with
          rVal := BitVec.ofNat 32
            (patternValue (((c ^^^ flips) >>> d.off.toNat).setWidth 8) (bitCount d.mask)) })

/-- Every catalog section is well-formed at every configuration in range whose parity positions avoid
their own section's data bits (10_state.md R31, derived there). -/
def Obligations.CatalogIsWellFormed : Prop :=
  ∀ c : Cfg, c.inRange = true →
    (c.pposMinute < 32 ∨ 38 < c.pposMinute) → (c.pposHour < 25 ∨ 30 < c.pposHour) →
    (c.pposYear < 2 ∨ 9 < c.pposYear) →
    ∀ f : Field, wellFormedSection (catalog c f) = true

/-! ## The frame assembler -/

/-- FENC on values in range (42_frame_codec.md R141, R143): operation code 100; the carrier is the OR of
what SENC answers for the six values under their own sections and of the bits of the true flags. -/
def Obligations.FencOrsFragmentsAndFlags : Prop :=
  ∀ (s : State) (r : Request), r.op = 0b100 →
    r.dt.minute < 60 → r.dt.hour < 24 → r.dt.day < s.cfg.maxDay → r.dt.dow < s.cfg.maxDow →
    r.dt.month < s.cfg.maxMonth → r.dt.year < s.cfg.maxYear →
    ∃ mi ho da dw mo ye : Carrier,
      Answers (.senc r.dt.minute (catalog s.cfg .minute)) s { succeeded with rCar := mi } ∧
      Answers (.senc r.dt.hour (catalog s.cfg .hour)) s { succeeded with rCar := ho } ∧
      Answers (.senc r.dt.day (catalog s.cfg .day)) s { succeeded with rCar := da } ∧
      Answers (.senc r.dt.dow (catalog s.cfg .dow)) s { succeeded with rCar := dw } ∧
      Answers (.senc r.dt.month (catalog s.cfg .month)) s { succeeded with rCar := mo } ∧
      Answers (.senc r.dt.year (catalog s.cfg .year)) s { succeeded with rCar := ye } ∧
      (let car := mi ||| ho ||| da ||| dw ||| mo ||| ye ||| flagBits s.cfg r.fl
       StepAnswers r s { succeeded with rCar := car } ∧
       Answers (.fenc r.dt r.fl) s { succeeded with rCar := car })

/-- FENC names the first field out of range in the order minute, hour, day, dow, month, year
(42_frame_codec.md R142, 60_exceptions.md R166: the order is the spec's decision D11). -/
def Obligations.FencNamesFirstFieldOutOfRange : Prop :=
  ∀ (s : State) (dt : FieldValues) (fl : FlagSet),
    (60 ≤ dt.minute → Answers (.fenc dt fl) s (failed 0b01 0)) ∧
    (dt.minute < 60 → 24 ≤ dt.hour → Answers (.fenc dt fl) s (failed 0b01 1)) ∧
    (dt.minute < 60 → dt.hour < 24 → s.cfg.maxDay ≤ dt.day →
      Answers (.fenc dt fl) s (failed 0b01 2)) ∧
    (dt.minute < 60 → dt.hour < 24 → dt.day < s.cfg.maxDay → s.cfg.maxDow ≤ dt.dow →
      Answers (.fenc dt fl) s (failed 0b01 3)) ∧
    (dt.minute < 60 → dt.hour < 24 → dt.day < s.cfg.maxDay → dt.dow < s.cfg.maxDow →
      s.cfg.maxMonth ≤ dt.month → Answers (.fenc dt fl) s (failed 0b01 4)) ∧
    (dt.minute < 60 → dt.hour < 24 → dt.day < s.cfg.maxDay → dt.dow < s.cfg.maxDow →
      dt.month < s.cfg.maxMonth → s.cfg.maxYear ≤ dt.year →
      Answers (.fenc dt fl) s (failed 0b01 5))

/-- FDEC on a carrier whose six sections SDEC accepts (42_frame_codec.md R144, R147, R152; no inversion
of a flag is the spec's decision D16): operation code 101; each field is what SDEC answers and each
flag is its carrier bit. -/
def Obligations.FdecReadsFieldsAndFlags : Prop :=
  ∀ (s : State) (r : Request) (dt : FieldValues), r.op = 0b101 →
    Answers (.sdec r.car (catalog s.cfg .minute)) s { succeeded with rVal := dt.minute } →
    Answers (.sdec r.car (catalog s.cfg .hour)) s { succeeded with rVal := dt.hour } →
    Answers (.sdec r.car (catalog s.cfg .day)) s { succeeded with rVal := dt.day } →
    Answers (.sdec r.car (catalog s.cfg .dow)) s { succeeded with rVal := dt.dow } →
    Answers (.sdec r.car (catalog s.cfg .month)) s { succeeded with rVal := dt.month } →
    Answers (.sdec r.car (catalog s.cfg .year)) s { succeeded with rVal := dt.year } →
    ∃ fl : FlagSet,
      StepAnswers r s { succeeded with rDt := dt, rFl := fl } ∧
      Answers (.fdec r.car) s { succeeded with rDt := dt, rFl := fl } ∧
      fl.getLsbD 0 = r.car.getLsbD 44 ∧ fl.getLsbD 1 = r.car.getLsbD 43 ∧
      fl.getLsbD 2 = r.car.getLsbD 42 ∧ fl.getLsbD 3 = r.car.getLsbD s.cfg.posStd.toNat ∧
      fl.getLsbD 4 = r.car.getLsbD 41

/-- When FDEC completes (60_exceptions.md R163): on every carrier whose minute, hour and year data and
parity bits each hold an even number of ones; the other three fields cannot fail. -/
def Obligations.FdecCompletesOnEvenParity : Prop :=
  ∀ (s : State) (c : Carrier),
    (∀ f ∈ [Field.minute, Field.hour, Field.year],
      bitCount (c &&& (dataMask (catalog s.cfg f) ||| parityMask (catalog s.cfg f))) % 2 = 0) →
    ∃ (dt : FieldValues) (fl : FlagSet),
      Answers (.fdec c) s { succeeded with rDt := dt, rFl := fl } ∧
      dt.minute.toNat ≤ 85 ∧ dt.hour.toNat ≤ 45 ∧ dt.day.toNat ≤ 45 ∧ dt.dow.toNat ≤ 7 ∧
      dt.month.toNat ≤ 25 ∧ dt.year.toNat ≤ 165

/-- FDEC names the first field whose SDEC is a ParityError, in the order minute, hour, year
(42_frame_codec.md R145, 60_exceptions.md R166: the order is the spec's decision D11). -/
def Obligations.FdecNamesFirstParityError : Prop :=
  ∀ (s : State) (c : Carrier),
    (Answers (.sdec c (catalog s.cfg .minute)) s (failed 0b10 0b111) →
      Answers (.fdec c) s (failed 0b10 0)) ∧
    (∀ v, Answers (.sdec c (catalog s.cfg .minute)) s { succeeded with rVal := v } →
      Answers (.sdec c (catalog s.cfg .hour)) s (failed 0b10 0b111) →
      Answers (.fdec c) s (failed 0b10 1)) ∧
    (∀ v w, Answers (.sdec c (catalog s.cfg .minute)) s { succeeded with rVal := v } →
      Answers (.sdec c (catalog s.cfg .hour)) s { succeeded with rVal := w } →
      Answers (.sdec c (catalog s.cfg .year)) s (failed 0b10 0b111) →
      Answers (.fdec c) s (failed 0b10 5))

/-- The frame round trip at a configuration in range whose positions are pairwise disjoint
(42_frame_codec.md R150, derived there): every value and every flag comes back. -/
def Obligations.FrameRoundTrip : Prop :=
  ∀ (s : State) (dt : FieldValues) (fl : FlagSet), s.cfg.inRange = true →
    disjointLayout s.cfg = true →
    dt.minute < 60 → dt.hour < 24 → dt.day < s.cfg.maxDay → dt.dow < s.cfg.maxDow →
    dt.month < s.cfg.maxMonth → dt.year < s.cfg.maxYear →
    ∃ car : Carrier,
      Answers (.fenc dt fl) s { succeeded with rCar := car } ∧
      Answers (.fdec car) s { succeeded with rDt := dt, rFl := fl }

/-- The frame round trip at `POS_STD` = `POS_DST` (42_frame_codec.md R146, R150; 70_reset_and_hazards.md
R184; derived there): the six values come back, the three other flags come back, and flags 2 and 3
both come back as the OR of the two. -/
def Obligations.SharedStandardTimeBit : Prop :=
  ∀ (s : State) (dt : FieldValues) (fl : FlagSet), s.cfg.inRange = true → s.cfg.posStd = 42 →
    pairwiseDisjoint (layout s.cfg [.antenna, .dstAnnounce, .dstActive, .leapAnnounce]) = true →
    dt.minute < 60 → dt.hour < 24 → dt.day < s.cfg.maxDay → dt.dow < s.cfg.maxDow →
    dt.month < s.cfg.maxMonth → dt.year < s.cfg.maxYear →
    ∃ (car : Carrier) (fl' : FlagSet),
      Answers (.fenc dt fl) s { succeeded with rCar := car } ∧
      Answers (.fdec car) s { succeeded with rDt := dt, rFl := fl' } ∧
      fl'.getLsbD 0 = fl.getLsbD 0 ∧ fl'.getLsbD 1 = fl.getLsbD 1 ∧
      fl'.getLsbD 4 = fl.getLsbD 4 ∧
      fl'.getLsbD 2 = (fl.getLsbD 2 || fl.getLsbD 3) ∧ fl'.getLsbD 3 = (fl.getLsbD 2 || fl.getLsbD 3)

/-- Field independence at a configuration in range whose positions are pairwise disjoint
(20_memory.md R57, 42_frame_codec.md R149, derived there): two frames that differ in one field give
carriers that differ only in that field's data and parity bits, and decoding either gives the same
values for every other field and the same flags. -/
def Obligations.FieldsAreIndependent : Prop :=
  ∀ (s : State) (f : Field) (a b : FieldValues) (fl : FlagSet) (x y : Carrier),
    s.cfg.inRange = true → disjointLayout s.cfg = true →
    (∀ g : Field, g ≠ f → fieldValue a g = fieldValue b g) →
    Answers (.fenc a fl) s { succeeded with rCar := x } →
    Answers (.fenc b fl) s { succeeded with rCar := y } →
    (∀ p < 64, x.getLsbD p ≠ y.getLsbD p →
      IsDataBit (catalog s.cfg f) p ∨ IsParityBit (catalog s.cfg f) p) ∧
    ∃ a' b' : FieldValues,
      Answers (.fdec x) s { succeeded with rDt := a', rFl := fl } ∧
      Answers (.fdec y) s { succeeded with rDt := b', rFl := fl } ∧
      ∀ g : Field, g ≠ f → fieldValue a' g = fieldValue b' g

/-- Flag independence at such a configuration (42_frame_codec.md R149, derived there): two frames that
differ in one flag give carriers that differ at most in that flag's bit, and decoding either gives the
same field values and the same other flags. -/
def Obligations.FlagsAreIndependent : Prop :=
  ∀ (s : State) (k : Flag) (dt : FieldValues) (a b : FlagSet) (x y : Carrier),
    s.cfg.inRange = true → disjointLayout s.cfg = true →
    (∀ j : Flag, j ≠ k → a.getLsbD (flagIndex j) = b.getLsbD (flagIndex j)) →
    Answers (.fenc dt a) s { succeeded with rCar := x } →
    Answers (.fenc dt b) s { succeeded with rCar := y } →
    (∀ p < 64, x.getLsbD p ≠ y.getLsbD p → p = (flagPos s.cfg k).toNat) ∧
    ∃ a' b' : FlagSet,
      Answers (.fdec x) s { succeeded with rDt := dt, rFl := a' } ∧
      Answers (.fdec y) s { succeeded with rDt := dt, rFl := b' } ∧
      ∀ j : Flag, j ≠ k → a'.getLsbD (flagIndex j) = b'.getLsbD (flagIndex j)

/-- Reserved bits (20_memory.md R53, 42_frame_codec.md R151, derived there): FENC sets no bit outside
the layout, and FDEC reads none. -/
def Obligations.FrameBitsOutsideTheLayout : Prop :=
  ∀ s : State,
    (∀ (dt : FieldValues) (fl : FlagSet) (x : Carrier),
      Answers (.fenc dt fl) s { succeeded with rCar := x } → x &&& frameBits s.cfg = x) ∧
    (∀ c noise : Carrier, noise &&& frameBits s.cfg = 0 →
      exec (.fdec (c ||| noise)) s = exec (.fdec c) s) ∧
    (s.cfg.pposMinute = 31 → s.cfg.pposHour = 24 → s.cfg.pposYear = 1 → s.cfg.posStd = 42 →
      frameBits s.cfg = 0x00001E7FFFFFFFFE)

/-- The limits of the protection (70_reset_and_hazards.md R186 (a)): at the default parity positions
any corruption of carrier bits 23:10 of an accepted carrier is accepted, and minute, hour and year
decode as before. -/
def Obligations.DateBitsAreUnprotected : Prop :=
  ∀ (s : State) (c flips : Carrier) (dt : FieldValues) (fl : FlagSet),
    s.cfg.pposMinute = 31 → s.cfg.pposHour = 24 → s.cfg.pposYear = 1 →
    Answers (.fdec c) s { succeeded with rDt := dt, rFl := fl } →
    (∀ p, flips.getLsbD p = true → 10 ≤ p ∧ p ≤ 23) →
    ∃ (dt' : FieldValues) (fl' : FlagSet),
      Answers (.fdec (c ^^^ flips)) s { succeeded with rDt := dt', rFl := fl' } ∧
      dt'.minute = dt.minute ∧ dt'.hour = dt.hour ∧ dt'.year = dt.year

/-- At the printed bounds FENC refuses day 31, dow 7 and month 12, and accepts 0 for each
(70_reset_and_hazards.md R188; the bounds are the spec's decision D8, so the statement names them). -/
def Obligations.PrintedBoundsRefuseLegalDates : Prop :=
  ∀ (s : State) (dt : FieldValues) (fl : FlagSet),
    s.cfg.maxDay = 31 → s.cfg.maxDow = 7 → s.cfg.maxMonth = 12 → dt.minute < 60 → dt.hour < 24 →
    (dt.day = 31 → Answers (.fenc dt fl) s (failed 0b01 2)) ∧
    (dt.day < 31 → dt.dow = 7 → Answers (.fenc dt fl) s (failed 0b01 3)) ∧
    (dt.day < 31 → dt.dow < 7 → dt.month = 12 → Answers (.fenc dt fl) s (failed 0b01 4)) ∧
    (dt.day = 0 → dt.dow = 0 → dt.month = 0 → dt.year < s.cfg.maxYear →
      ∃ car, Answers (.fenc dt fl) s { succeeded with rCar := car })

/-- The worked frame of 95_test_vectors.md S-4 and S-5 at the default parity positions and bounds: the
carrier for every `POS_STD`, and the error when its hour parity bit is corrupted. -/
def Obligations.WorkedFrame : Prop :=
  ∀ s : State, s.cfg = { Cfg.defaults with posStd := s.cfg.posStd } →
    Answers (.fenc ⟨15, 10, 12, 5, 11, 21⟩ 0b00100) s { succeeded with rCar := 0x00000415A14AC484 } ∧
    Answers (.fdec 0x00000415A04AC484) s (failed 0b10 0b001)

/-! ## The whole machine -/

/-- The closed table of errors (60_exceptions.md R163, derived there): PENC and PDEC never fail, SENC
and FENC fail with RangeError alone, SDEC and FDEC with ParityError alone, and the field named is one
of those the table lists. -/
def Obligations.ErrorsOfEachOperation : Prop :=
  ∀ (s t : State),
    (∀ v n, exec (.penc v n) s = .next t → t.res.ok = true) ∧
    (∀ b n, exec (.pdec b n) s = .next t → t.res.ok = true) ∧
    (∀ v d, exec (.senc v d) s = .next t → t.res.ok = false →
      t.res.ekind = 0b01 ∧ t.res.efield = 0b111) ∧
    (∀ c d, exec (.sdec c d) s = .next t → t.res.ok = false →
      t.res.ekind = 0b10 ∧ t.res.efield = 0b111) ∧
    (∀ dt fl, exec (.fenc dt fl) s = .next t → t.res.ok = false →
      t.res.ekind = 0b01 ∧ t.res.efield ≤ 5) ∧
    (∀ c, exec (.fdec c) s = .next t → t.res.ok = false →
      t.res.ekind = 0b10 ∧ (t.res.efield = 0 ∨ t.res.efield = 1 ∨ t.res.efield = 5))

/-- No partial result (60_exceptions.md R168): a transaction either succeeds whole or shows no result. -/
def Obligations.NoPartialResult : Prop :=
  ∀ s t : State, step s = .next t →
    (t.res.ok = true ∧ t.res.ekind = 0 ∧ t.res.efield = 7) ∨
    ∃ (k : BitVec 2) (f : BitVec 3), (k = 1 ∨ k = 2) ∧ t.res = failed k f

/-- The frame of every operation: the configuration and the operand ports are unchanged, and each
operation drives only its own result ports (30_encoding.md R72, R79; 70_reset_and_hazards.md R181). -/
def Obligations.OperationsDriveOnlyTheirResults : Prop :=
  ∀ (i : Instr) (s t : State), exec i s = .next t →
    t.cfg = s.cfg ∧ t.req = s.req ∧
    (∀ v n, i = .penc v n → t.res = { succeeded with rBits := t.res.rBits }) ∧
    (∀ b n, i = .pdec b n → t.res = { succeeded with rVal := t.res.rVal }) ∧
    (∀ v d, i = .senc v d → t.res.ok = true → t.res = { succeeded with rCar := t.res.rCar }) ∧
    (∀ c d, i = .sdec c d → t.res.ok = true → t.res = { succeeded with rVal := t.res.rVal }) ∧
    (∀ dt fl, i = .fenc dt fl → t.res.ok = true → t.res = { succeeded with rCar := t.res.rCar }) ∧
    (∀ c, i = .fdec c → t.res.ok = true →
      t.res = { succeeded with rDt := t.res.rDt, rFl := t.res.rFl })

/-- Nothing written by one transaction is read by another (10_state.md R20): a step's outcome depends
on the request and the configuration alone. A next state has the configuration as it was (R181) and the
request as it was; the latter is the model's choice to keep the operand ports in State, log entry 1. -/
def Obligations.TransactionsDoNotInteract : Prop :=
  ∀ s s' : State, s.req = s'.req → s.cfg = s'.cfg →
    step s = step s' ∧ ∀ t, step s = .next t → t.req = s.req ∧ t.cfg = s.cfg

/-- Every operation is atomic, idempotent and free of side effects (20_memory.md R56): the response is
the whole result or the error; the same request under the same configuration, presented again after any
transaction, gets the same response; the configuration is as before. That the operand ports still hold
the request after a step, so that stepping again answers it again, is the model's choice, log entry 1. -/
def Obligations.TransactionsAreIdempotent : Prop :=
  ∀ s t u : State, ∀ r : Request, step s = .next t → step { t with req := r } = .next u →
    ((t.res.ok = true ∧ t.res.ekind = 0 ∧ t.res.efield = 7) ∨
      ∃ (k : BitVec 2) (f : BitVec 3), t.res = failed k f) ∧
    t.req = s.req ∧ t.cfg = s.cfg ∧
    step t = .next t ∧ step { u with req := s.req } = .next t

/-- The transaction after an error is treated like any other (60_exceptions.md R169). -/
def Obligations.ErrorsLeaveNoTrace : Prop :=
  ∀ (s t : State) (r : Request), step s = .next t → t.res.ok = false →
    step { t with req := r } = step { s with req := r }

/-- The invariant of a machine state is kept by every step, from every state: the configuration stays
in range, the status is a row of 30_encoding.md R78, an error shows no result, and every decoded value
is representable. -/
def Obligations.StepKeepsTheInvariant : Prop :=
  ∀ s t : State, s.inv = true → step s = .next t → t.inv = true

/-- The invariant holds after reset. The configuration is in range because State.reset holds the
spec's defaults (00_scope.md R6), and the ports meet it because they are 0: both are the model's choice
of reset state (log entries 3, 4 and 5). -/
def Obligations.ResetHasTheInvariant : Prop := State.reset.inv = true

/-- After reset (10_state.md R46) the constant tables have their values under the configuration: the
weights of R25, the sections of R32 to R37, the flag positions of R38 to R42; that the
configuration after reset is the default one (00_scope.md R6, decisions D7 to D9) is the model's choice,
log entry 5, and `POS_STD` is whatever the free value is, log entry 6. -/
def Obligations.ResetLeavesTheTables : Prop :=
  (∀ i < 8, (weight i).toNat = printedWeight i) ∧
  catalog State.reset.cfg .minute = ⟨0x7F, 32, true, 31, 60⟩ ∧
  catalog State.reset.cfg .hour = ⟨0x3F, 25, true, 24, 24⟩ ∧
  catalog State.reset.cfg .day = ⟨0x3F, 18, false, 0, 31⟩ ∧
  catalog State.reset.cfg .dow = ⟨0x07, 15, false, 0, 7⟩ ∧
  catalog State.reset.cfg .month = ⟨0x1F, 10, false, 0, 12⟩ ∧
  catalog State.reset.cfg .year = ⟨0xFF, 2, true, 1, 100⟩ ∧
  flagPos State.reset.cfg .antenna = 44 ∧ flagPos State.reset.cfg .dstAnnounce = 43 ∧
  flagPos State.reset.cfg .dstActive = 42 ∧
  flagPos State.reset.cfg .standardTime = State.reset.cfg.posStd ∧
  flagPos State.reset.cfg .leapAnnounce = 41

/-- From every state, a step answers every request whose operation code and count are not reserved,
with a result or an error and never both (00_scope.md R4, R10): the block never faults. -/
def Obligations.EveryLegalRequestIsAnswered : Prop :=
  ∀ (s : State) (r : Request), r.op.toNat ≤ 5 → (r.op.toNat ≤ 1 → r.n ≤ 8) →
    ∃ p : ResultPorts, StepAnswers r s p ∧
      ((p.ok = true ∧ p.ekind = 0 ∧ p.efield = 7) ∨
        (p.ok = false ∧ (p.ekind = 1 ∨ p.ekind = 2) ∧ p.efield ≠ 6))
end

