-- ==== Sys2Proof/Laws/State.lean ====
section
/-!
SUPPORT. The fields of a state after each update, and of the ports of each response.
-/

namespace Sys2Proof.Machine

@[simp] theorem fetch_eq (s : State) : fetch s = s.req := rfl

@[simp] theorem present_cfg (s : State) (r : Request) : (present s r).cfg = s.cfg := rfl
@[simp] theorem present_req (s : State) (r : Request) : (present s r).req = r := rfl
@[simp] theorem present_res (s : State) (r : Request) : (present s r).res = s.res := rfl

@[simp] theorem drive_cfg (s : State) (r : Result) : (drive s r).cfg = s.cfg := rfl
@[simp] theorem drive_req (s : State) (r : Result) : (drive s r).req = s.req := rfl
@[simp] theorem drive_res (s : State) (r : Result) : (drive s r).res = resultPorts r := rfl

@[simp] theorem reportError_cfg (s : State) (e : Error) : (reportError s e).cfg = s.cfg := rfl
@[simp] theorem reportError_req (s : State) (e : Error) : (reportError s e).req = s.req := rfl
@[simp] theorem reportError_res (s : State) (e : Error) : (reportError s e).res = errorPorts e := rfl

@[simp] theorem answer_ok (s : State) (r : Result) : answer s (.ok r) = drive s r := rfl
@[simp] theorem answer_error (s : State) (e : Error) : answer s (.error e) = reportError s e := rfl

/-- A response changes the result ports alone. -/
@[simp] theorem answer_cfg (s : State) (r : Response) : (answer s r).cfg = s.cfg := by cases r <;> rfl
@[simp] theorem answer_req (s : State) (r : Response) : (answer s r).req = s.req := by cases r <;> rfl

@[simp] theorem withFetchWord_cfg (s : State) (nbits w : Nat) :
    (s.withFetchWord nbits w).cfg = s.cfg := rfl
@[simp] theorem withFetchWord_req (s : State) (nbits w : Nat) :
    (s.withFetchWord nbits w).req = Request.ofTableWord nbits w := rfl
@[simp] theorem withFetchWord_res (s : State) (nbits w : Nat) :
    (s.withFetchWord nbits w).res = s.res := rfl

/-- The ports a succeeded drives. -/
theorem resultPorts_pattern (b : Pattern) : resultPorts (.pattern b) = { succeeded with rBits := b } := rfl
theorem resultPorts_value (v : Value) : resultPorts (.value v) = { succeeded with rVal := v } := rfl
theorem resultPorts_carrier (c : Carrier) : resultPorts (.carrier c) = { succeeded with rCar := c } := rfl
theorem resultPorts_frame (dt : FieldValues) (fl : FlagSet) :
    resultPorts (.frame dt fl) = { succeeded with rDt := dt, rFl := fl } := rfl

/-- The ports an error drives. -/
theorem errorPorts_range (f : Option Field) : errorPorts (.range f) = failed 1 (efieldCode f) := rfl
theorem errorPorts_parity (f : Option Field) : errorPorts (.parity f) = failed 2 (efieldCode f) := rfl

end Sys2Proof.Machine
end

