-- ==== Sys2Proof/Laws/Bits.lean ====
section
/-!
SUPPORT. Bit by bit: single bits, the masks of a section, placement and extraction, and counting.
-/

namespace Sys2Proof.Machine

/-! ## Single bits and masks -/

theorem bit_getLsbD (q : BitPos) (p : Nat) : (bit q).getLsbD p = decide (p = q.toNat) := by
  have hq := q.isLt
  simp only [bit, BitVec.getLsbD_shiftLeft, BitVec.getLsbD_one]
  by_cases h : p = q.toNat
  · subst h; simp [hq]
  · simp [h]; omega

theorem dataMask_getLsbD (d : SectionDesc) (p : Nat) :
    (dataMask d).getLsbD p = (decide (p < 64) && (!decide (p < d.off.toNat) && d.mask.getLsbD (p - d.off.toNat))) := by
  simp only [dataMask, BitVec.getLsbD_shiftLeft, BitVec.getLsbD_setWidth]
  by_cases h : p < 64 <;> by_cases h' : p < d.off.toNat <;> simp [h, h']
  intro; omega

theorem parityMask_getLsbD (d : SectionDesc) (p : Nat) :
    (parityMask d).getLsbD p = (d.pen && decide (p = d.ppos.toNat)) := by
  unfold parityMask; split <;> simp_all [bit_getLsbD]

theorem place_getLsbD (d : SectionDesc) (b : Pattern) (p : Nat) :
    (place d b).getLsbD p =
      (decide (p < 64) && (!decide (p < d.off.toNat) &&
        (d.mask.getLsbD (p - d.off.toNat) && b.getLsbD (p - d.off.toNat)))) := by
  simp only [place, BitVec.getLsbD_and, dataMask_getLsbD, BitVec.getLsbD_shiftLeft,
    BitVec.getLsbD_setWidth]
  by_cases h : p < 64 <;> by_cases h' : p < d.off.toNat <;> simp [h, h']
  have : p - d.off.toNat < 64 := by omega
  simp [this, Bool.and_comm]

theorem extract_getLsbD (d : SectionDesc) (c : Carrier) (i : Nat) :
    (extract d c).getLsbD i =
      (decide (d.off.toNat + i < 64) && (d.mask.getLsbD i && c.getLsbD (d.off.toNat + i))) := by
  by_cases hi : i < 8
  · simp only [extract, BitVec.getLsbD_setWidth, BitVec.getLsbD_ushiftRight, BitVec.getLsbD_and,
      dataMask_getLsbD, hi]
    simp [Bool.and_comm, Bool.and_left_comm, Bool.and_assoc]
  · have h : ∀ b : Pattern, b.getLsbD i = false := fun b => BitVec.getLsbD_of_ge b i (by omega)
    simp [h]

/-! ## Counting -/

theorem onesBelow_eq {w : Nat} (v : BitVec w) (k : Nat) :
    onesBelow v k = ((List.range k).filter fun i => v.getLsbD i).length := by
  induction k with
  | zero => rfl
  | succ k ih =>
    rw [onesBelow, ih, List.range_succ, List.filter_append, List.length_append]
    cases h : v.getLsbD k <;> simp [h]

theorem popcount_eq_bitCount {w : Nat} (v : BitVec w) : popcount v = bitCount v := onesBelow_eq v w

theorem onesBelow_le {w : Nat} (v : BitVec w) (k : Nat) : onesBelow v k ≤ k := by
  rw [onesBelow_eq]; simpa using List.length_filter_le (fun i => v.getLsbD i) (List.range k)

theorem activeCount_le (d : SectionDesc) : activeCount d ≤ 8 := onesBelow_le d.mask 8

theorem oddOnes_iff (v : Carrier) : oddOnes v = true ↔ bitCount v % 2 = 1 := by
  simp [oddOnes, popcount_eq_bitCount]

theorem onesBelow_congr {w : Nat} {u v : BitVec w} (k : Nat)
    (h : ∀ i < k, u.getLsbD i = v.getLsbD i) : onesBelow u k = onesBelow v k := by
  induction k with
  | zero => rfl
  | succ k ih => rw [onesBelow, onesBelow, ih fun i hi => h i (by omega), h k (by omega)]

/-- Disjoint words count separately. -/
theorem onesBelow_or {w : Nat} (u v : BitVec w) (h : ∀ i, ¬(u.getLsbD i = true ∧ v.getLsbD i = true))
    (k : Nat) : onesBelow (u ||| v) k = onesBelow u k + onesBelow v k := by
  induction k with
  | zero => rfl
  | succ k ih =>
    have := h k
    simp only [onesBelow, ih, BitVec.getLsbD_or]
    cases hu : u.getLsbD k <;> cases hv : v.getLsbD k <;> simp_all <;> omega

/-- The parity of an exclusive or is the parity of the sum. -/
theorem onesBelow_xor {w : Nat} (u v : BitVec w) (k : Nat) :
    onesBelow (u ^^^ v) k % 2 = (onesBelow u k + onesBelow v k) % 2 := by
  induction k with
  | zero => rfl
  | succ k ih =>
    simp only [onesBelow, BitVec.getLsbD_xor]
    cases hu : u.getLsbD k <;> cases hv : v.getLsbD k <;> simp <;> omega

theorem onesBelow_bit (q : BitPos) (k : Nat) :
    onesBelow (bit q) k = if q.toNat < k then 1 else 0 := by
  induction k with
  | zero => rfl
  | succ k ih =>
    simp only [onesBelow, ih, bit_getLsbD]
    by_cases h : k = q.toNat
    · subst h; simp
    · by_cases h' : q.toNat < k <;> simp [h, h'] <;> omega

theorem popcount_bit (q : BitPos) : popcount (bit q) = 1 := by
  rw [popcount, onesBelow_bit, if_pos q.isLt]

end Sys2Proof.Machine
end

