-- ==== Sys2Proof/Laws/Decode.lean ====
section
/-!
SUPPORT. The request as one number and the packed descriptor, taken apart again; when a count is legal.
-/

namespace Sys2Proof

theorem Count.legal_of_le {n : Count} (h : n ≤ 8) : Count.legal n = true := decide_eq_true h

theorem Count.legal_iff (n : Count) : Count.legal n = true ↔ n.toNat ≤ 8 := by
  rw [Count.legal, decide_eq_true_iff]; exact Iff.rfl

theorem ofNat_below {k : Nat} (x : BitVec k) (rest : Nat) : BitVec.ofNat k (below x rest) = x := by
  apply BitVec.eq_of_toNat_eq
  rw [BitVec.toNat_ofNat, below, Nat.add_mul_mod_self_left, Nat.mod_eq_of_lt x.isLt]

theorem below_div {k : Nat} (x : BitVec k) (rest : Nat) : below x rest / 2 ^ k = rest := by
  rw [below, Nat.add_mul_div_left _ _ (Nat.two_pow_pos k), Nat.div_eq_of_lt x.isLt, Nat.zero_add]

theorem below_lt {k n : Nat} (x : BitVec k) {rest : Nat} (h : rest < 2 ^ n) :
    below x rest < 2 ^ (k + n) := by
  have hx := x.isLt
  rw [below, Nat.pow_add]
  calc x.toNat + 2 ^ k * rest < 2 ^ k * (rest + 1) := by rw [Nat.mul_add]; omega
    _ ≤ 2 ^ k * 2 ^ n := Nat.mul_le_mul_left _ h

theorem Request.ofWord_toWord (r : Request) : Request.ofWord r.toWord = r := by
  simp only [Request.ofWord, Request.toWord, ofNat_below, below_div]

theorem Request.toWord_lt (r : Request) : r.toWord < 2 ^ 361 := by
  unfold Request.toWord
  have h : (0 : Nat) < 2 ^ 0 := by decide
  exact below_lt r.op <| below_lt r.val <| below_lt r.n <| below_lt r.bits <| below_lt r.car <|
    below_lt r.sec <| below_lt r.dt.minute <| below_lt r.dt.hour <| below_lt r.dt.day <|
    below_lt r.dt.dow <| below_lt r.dt.month <| below_lt r.dt.year <| below_lt r.fl h

/-- Unpacking the packed descriptor gives it back (30_encoding.md R73). -/
theorem SectionDesc.unpack_pack (d : SectionDesc) : SectionDesc.unpack d.pack = d := by
  obtain ⟨mask, off, pen, ppos, max⟩ := d
  simp only [SectionDesc.unpack, SectionDesc.pack, SectionDesc.mk.injEq]
  refine ⟨?_, ?_, ?_, ?_, ?_⟩
  · ext i hi; simp; grind
  · ext i hi; simp; grind
  · simp only [BitVec.getLsbD_append]; simp
  · ext i hi; simp; grind
  · ext i hi; simp; grind

end Sys2Proof
end

