-- ==== Sys2Proof/Laws/Pulse.lean ====
section
/-!
SUPPORT. The pulse codec: what its two loops compute, by induction on the weights in use.
-/

namespace Sys2Proof.Machine

/-! ## The weights -/

theorem weight_toNat (i : Nat) : (weight i).toNat = printedWeight i := by
  by_cases h : i < 8
  · interval_cases i <;> rfl
  · simp [weight, printedWeight, weightTable, Nat.not_lt.mp h]

theorem printedWeight_le (i : Nat) : printedWeight i ≤ 80 := by
  by_cases h : i < 8
  · interval_cases i <;> decide
  · simp [printedWeight, Nat.not_lt.mp h]

theorem weightSum_eq_printedSum {n : Nat} (h : n ≤ 8) : weightSum n = printedSum n := by
  interval_cases n <;> rfl

theorem printedSum_succ {n : Nat} (h : n < 8) : printedSum (n + 1) = printedSum n + printedWeight n := by
  interval_cases n <;> rfl

/-- Each weight is at most one more than the sum of the smaller ones (40_pulse_codec.md R103). -/
theorem printedWeight_le_sum {n : Nat} (h : n < 8) : printedWeight n ≤ printedSum n + 1 := by
  interval_cases n <;> decide

theorem printedSum_le {n : Nat} (h : n ≤ 8) : printedSum n ≤ 165 := by
  interval_cases n <;> decide

/-! ## The value of a pattern -/

theorem patternValue_succ (b : Pattern) (n : Nat) :
    patternValue b (n + 1) = patternValue b n + if b.getLsbD n then printedWeight n else 0 := by
  simp [patternValue, List.range_succ]

theorem patternValue_congr {a b : Pattern} {n : Nat} (h : ∀ i < n, a.getLsbD i = b.getLsbD i) :
    patternValue a n = patternValue b n := by
  induction n with
  | zero => rfl
  | succ n ih =>
    rw [patternValue_succ, patternValue_succ, ih fun i hi => h i (by omega), h n (by omega)]

theorem patternValue_le {n : Nat} (hn : n ≤ 8) (b : Pattern) : patternValue b n ≤ printedSum n := by
  induction n with
  | zero => simp [patternValue]
  | succ n ih =>
    have := ih (by omega)
    rw [patternValue_succ, printedSum_succ (by omega)]
    split <;> omega

theorem patternValue_of_all {n : Nat} (hn : n ≤ 8) {b : Pattern} (h : ∀ i < n, b.getLsbD i = true) :
    patternValue b n = printedSum n := by
  induction n with
  | zero => rfl
  | succ n ih =>
    rw [patternValue_succ, printedSum_succ (by omega), ih (by omega) fun i hi => h i (by omega),
      h n (by omega), if_pos rfl]

/-! ## The decoding loop -/

theorem pulseDecodeFrom_toNat {n : Nat} (hn : n ≤ 8) (b : Pattern) (sum : Value)
    (h : sum.toNat + printedSum n < 2 ^ 32) :
    (pulseDecodeFrom n b sum).toNat = sum.toNat + patternValue b n := by
  induction n generalizing sum with
  | zero => simp [pulseDecodeFrom, patternValue]
  | succ n ih =>
    have hs := printedSum_succ (n := n) (by omega)
    have hw := weight_toNat n
    rw [pulseDecodeFrom, patternValue_succ]
    split
    · have : (sum + weight n).toNat = sum.toNat + printedWeight n := by
        rw [BitVec.toNat_add, hw, Nat.mod_eq_of_lt (by omega)]
      rw [ih (by omega) _ (by omega)]; omega
    · rw [ih (by omega) _ (by omega)]; omega

/-- PDEC sums the weights of the set bits (R101). -/
theorem pulseDecode_toNat {n : Nat} (hn : n ≤ 8) (b : Pattern) :
    (pulseDecode b n).toNat = patternValue b n := by
  have := printedSum_le hn
  rw [pulseDecode, pulseDecodeFrom_toNat hn b 0#32 (by simp; omega)]; simp

theorem pulseDecode_le {n : Nat} (hn : n ≤ 8) (b : Pattern) :
    (pulseDecode b n).toNat ≤ printedSum n := by
  rw [pulseDecode_toNat hn]; exact patternValue_le hn b

theorem pulseDecode_congr {a b : Pattern} {n : Nat} (h : ∀ i < n, a.getLsbD i = b.getLsbD i) :
    pulseDecode a n = pulseDecode b n := by
  suffices ∀ sum, pulseDecodeFrom n a sum = pulseDecodeFrom n b sum from this 0#32
  induction n with
  | zero => intro; rfl
  | succ n ih =>
    intro sum
    rw [pulseDecodeFrom, pulseDecodeFrom, h n (by omega)]
    exact ih (fun i hi => h i (by omega)) _

/-! ## The encoding loop -/

theorem pulseEncodeFrom_acc (n : Nat) (rem : Value) (b : Pattern) :
    pulseEncodeFrom n rem b = b ||| pulseEncodeFrom n rem 0#8 := by
  induction n generalizing rem b with
  | zero => simp [pulseEncodeFrom]
  | succ n ih =>
    rw [pulseEncodeFrom, pulseEncodeFrom]
    split
    · rw [ih, ih (rem - weight n) (0#8 ||| _), ← BitVec.or_assoc]; simp
    · rw [ih]

theorem one_shiftLeft_getLsbD8 (n i : Nat) : (1#8 <<< n).getLsbD i = decide (i = n ∧ i < 8) := by
  simp only [BitVec.getLsbD_shiftLeft, BitVec.getLsbD_one]
  by_cases h : i = n <;> by_cases h' : i < 8 <;> simp [h, h']; omega

/-- One turn of the loop: the bit of the largest weight, then the rest. -/
theorem pulseEncode_succ (v : Value) (n : Nat) :
    pulseEncode v (n + 1) =
      if weight n ≤ v then 1#8 <<< n ||| pulseEncode (v - weight n) n else pulseEncode v n := by
  rw [pulseEncode, pulseEncodeFrom]
  split
  · rw [pulseEncodeFrom_acc]; simp [pulseEncode]
  · rfl

theorem pulseEncode_high {n i : Nat} (v : Value) (h : n ≤ i) :
    (pulseEncode v n).getLsbD i = false := by
  induction n generalizing v with
  | zero => simp [pulseEncode, pulseEncodeFrom]
  | succ n ih =>
    rw [pulseEncode_succ]
    split
    · rw [BitVec.getLsbD_or, ih _ (by omega), one_shiftLeft_getLsbD8]; simp; omega
    · exact ih _ (by omega)

theorem weight_le_iff (n : Nat) (v : Value) : weight n ≤ v ↔ printedWeight n ≤ v.toNat := by
  rw [BitVec.le_def, weight_toNat]

theorem sub_weight_toNat {n : Nat} {v : Value} (h : weight n ≤ v) :
    (v - weight n).toNat = v.toNat - printedWeight n := by
  rw [BitVec.toNat_sub_of_le h, weight_toNat]

/-- The top bit is set exactly when its weight is reached. -/
theorem pulseEncode_top {n : Nat} (hn : n < 8) (v : Value) :
    (pulseEncode v (n + 1)).getLsbD n = decide (printedWeight n ≤ v.toNat) := by
  rw [pulseEncode_succ]
  split
  · rename_i h
    rw [BitVec.getLsbD_or, one_shiftLeft_getLsbD8]; simp [hn, (weight_le_iff n v).mp h]
  · rename_i h
    rw [pulseEncode_high v (Nat.le_refl n)]
    simpa [weight_le_iff] using h

/-- A representable value is the value of its pattern (R102, R103). -/
theorem patternValue_pulseEncode {n : Nat} (hn : n ≤ 8) {v : Value} (h : v.toNat ≤ printedSum n) :
    patternValue (pulseEncode v n) n = v.toNat := by
  induction n generalizing v with
  | zero => have : v.toNat ≤ 0 := h; simp [patternValue]; omega
  | succ n ih =>
    have hs := printedSum_succ (n := n) (by omega)
    have hw := printedWeight_le_sum (n := n) (by omega)
    rw [patternValue_succ, pulseEncode_top (by omega)]
    by_cases hle : weight n ≤ v
    · have hle' := (weight_le_iff n v).mp hle
      have hsub := sub_weight_toNat hle
      rw [pulseEncode_succ, if_pos hle, if_pos (by simpa using hle')]
      rw [patternValue_congr (b := pulseEncode (v - weight n) n), ih (by omega) (by omega)]
      · omega
      · intro i hi
        rw [BitVec.getLsbD_or, one_shiftLeft_getLsbD8]
        have : ¬(i = n ∧ i < 8) := by omega
        simp [this]
    · have hle' : ¬ printedWeight n ≤ v.toNat := fun h => hle ((weight_le_iff n v).mpr h)
      rw [pulseEncode_succ, if_neg hle, ih (by omega) (by omega), if_neg (by simpa using hle')]
      rfl

/-- The round trip of the codec (R102). -/
theorem pulseDecode_pulseEncode {n : Nat} (hn : n ≤ 8) {v : Value} (h : v.toNat ≤ printedSum n) :
    pulseDecode (pulseEncode v n) n = v := by
  apply BitVec.eq_of_toNat_eq
  rw [pulseDecode_toNat hn, patternValue_pulseEncode hn h]

/-- A value of `S(n)` or more sets every bit in use (R104). -/
theorem pulseEncode_saturates {n : Nat} (hn : n ≤ 8) {v : Value} (h : printedSum n ≤ v.toNat) :
    ∀ i < n, (pulseEncode v n).getLsbD i = true := by
  induction n generalizing v with
  | zero => intro i hi; omega
  | succ n ih =>
    intro i hi
    have hs := printedSum_succ (n := n) (by omega)
    have hle : weight n ≤ v := (weight_le_iff n v).mpr (by omega)
    have hsub := sub_weight_toNat hle
    by_cases hin : i = n
    · subst hin; rw [pulseEncode_top (by omega)]; simp; omega
    · rw [pulseEncode_succ, if_pos hle, BitVec.getLsbD_or,
        ih (by omega) (v := v - weight n) (by omega) i (by omega)]
      simp

end Sys2Proof.Machine
end

