-- ==== Sys2Proof/Laws/SectionCodec.lean ====
section
/-!
SUPPORT. The section codec: when its two functions succeed, and the bits of a fragment.
-/

namespace Sys2Proof.Machine

/-! ## Encoding -/

theorem sectionEncode_of_le {v : Value} {d : SectionDesc} (h : d.max ≤ v) :
    sectionEncode v d = .error (.range none) := if_pos h

theorem sectionEncode_of_lt {v : Value} {d : SectionDesc} (h : v < d.max) :
    sectionEncode v d =
      .ok (place d (pulseEncode v (activeCount d)) |||
        parityBit d (place d (pulseEncode v (activeCount d)))) :=
  if_neg (BitVec.not_le.mpr h)

theorem sectionEncode_eq_ok {v : Value} {d : SectionDesc} {x : Carrier}
    (h : sectionEncode v d = .ok x) :
    v < d.max ∧ x = place d (pulseEncode v (activeCount d)) |||
      parityBit d (place d (pulseEncode v (activeCount d))) := by
  unfold sectionEncode at h
  split at h
  · cases h
  · rename_i hv; injection h with h; exact ⟨BitVec.not_le.mp hv, h.symm⟩

theorem parityBit_getLsbD (d : SectionDesc) (x : Carrier) (p : Nat) :
    (parityBit d x).getLsbD p = (d.pen && oddOnes x && decide (p = d.ppos.toNat)) := by
  unfold parityBit
  split <;> simp_all [bit_getLsbD]

theorem parityBit_of_pen_false {d : SectionDesc} (h : d.pen = false) (x : Carrier) :
    parityBit d x = 0 := by simp [parityBit, h]

/-- A placed pattern lies in the data bits. -/
theorem place_and_dataMask (d : SectionDesc) (b : Pattern) : place d b &&& dataMask d = place d b := by
  rw [place, BitVec.and_assoc, BitVec.and_self]

/-- A fragment lies in its section (41_section_codec.md R124). -/
theorem sectionEncode_within {v : Value} {d : SectionDesc} {x : Carrier}
    (h : sectionEncode v d = .ok x) : x &&& (dataMask d ||| parityMask d) = x := by
  obtain ⟨-, rfl⟩ := sectionEncode_eq_ok h
  apply BitVec.eq_of_getLsbD_eq
  intro p hp
  simp only [BitVec.getLsbD_and, BitVec.getLsbD_or, place_getLsbD, parityBit_getLsbD,
    dataMask_getLsbD, parityMask_getLsbD, hp, decide_true, Bool.true_and]
  grind

/-! ## Decoding -/

theorem sectionDecode_of_fails {c : Carrier} {d : SectionDesc} (h : parityFails d c = true) :
    sectionDecode c d = .error (.parity none) := if_pos h

theorem sectionDecode_of_passes {c : Carrier} {d : SectionDesc} (h : parityFails d c = false) :
    sectionDecode c d = .ok (pulseDecode (extract d c) (activeCount d)) := by
  simp [sectionDecode, h]

theorem sectionDecode_of_pen_false {d : SectionDesc} (h : d.pen = false) (c : Carrier) :
    sectionDecode c d = .ok (pulseDecode (extract d c) (activeCount d)) :=
  sectionDecode_of_passes (by simp [parityFails, h])

/-- The two ways a section decode can end (41_section_codec.md R125). -/
theorem sectionDecode_cases (c : Carrier) (d : SectionDesc) :
    (parityFails d c = true ∧ sectionDecode c d = .error (.parity none)) ∨
    (parityFails d c = false ∧
      sectionDecode c d = .ok (pulseDecode (extract d c) (activeCount d))) := by
  cases h : parityFails d c
  · exact .inr ⟨rfl, sectionDecode_of_passes h⟩
  · exact .inl ⟨rfl, sectionDecode_of_fails h⟩

/-- A decoded value is representable (41_section_codec.md R130). -/
theorem sectionDecode_le {c : Carrier} {d : SectionDesc} {v : Value}
    (h : sectionDecode c d = .ok v) : v.toNat ≤ printedSum (activeCount d) := by
  obtain ⟨-, h'⟩ | ⟨-, h'⟩ := sectionDecode_cases c d <;> rw [h'] at h
  · cases h
  · injection h with h; rw [← h]; exact pulseDecode_le (activeCount_le d) _

/-- Decoding reads the section's bits alone (41_section_codec.md R134). -/
theorem sectionDecode_congr {a b : Carrier} {d : SectionDesc}
    (h : a &&& (dataMask d ||| parityMask d) = b &&& (dataMask d ||| parityMask d)) :
    sectionDecode a d = sectionDecode b d := by
  have hp : ∀ p, (a.getLsbD p && ((dataMask d).getLsbD p || (parityMask d).getLsbD p)) =
      (b.getLsbD p && ((dataMask d).getLsbD p || (parityMask d).getLsbD p)) := by
    intro p; simpa [BitVec.getLsbD_and, BitVec.getLsbD_or] using congrArg (·.getLsbD p) h
  have hd : a &&& dataMask d = b &&& dataMask d := by
    apply BitVec.eq_of_getLsbD_eq; intro p _
    have := hp p; simp only [BitVec.getLsbD_and]; grind
  have hq : a &&& parityMask d = b &&& parityMask d := by
    apply BitVec.eq_of_getLsbD_eq; intro p _
    have := hp p; simp only [BitVec.getLsbD_and]; grind
  unfold sectionDecode parityFails extract; rw [hd, hq]

/-! ## The catalog -/

/-- The weights in use of a catalog section (10_state.md R32 to R37). -/
theorem activeCount_catalog (c : Cfg) (f : Field) : activeCount (catalog c f) = fieldWidth f := by
  cases f <;> (simp only [activeCount, catalog, fieldWidth]; decide)

theorem catalog_pen (c : Cfg) (f : Field) :
    (catalog c f).pen = true ↔ f = .minute ∨ f = .hour ∨ f = .year := by cases f <;> simp [catalog]

end Sys2Proof.Machine
end

