-- ==== Sys2Proof/Laws/Frame.lean ====
section
/-!
SUPPORT. The frame assembler: its two loops over the fields, and its two loops over the flags.
-/

namespace Sys2Proof.Machine

/-! ## The field values -/

theorem fieldValue_setFieldValue (dt : FieldValues) (v : Value) (f g : Field) :
    fieldValue (setFieldValue dt v f) g = if g = f then v else fieldValue dt g := by
  cases f <;> cases g <;> rfl

theorem fieldValues_ext {a b : FieldValues} (h : ∀ f, fieldValue a f = fieldValue b f) : a = b := by
  cases a; cases b
  have h1 := h .minute; have h2 := h .hour; have h3 := h .day
  have h4 := h .dow; have h5 := h .month; have h6 := h .year
  simp_all [fieldValue]

theorem mem_fieldOrder (f : Field) : f ∈ fieldOrder := by cases f <;> decide

theorem nodup_fieldOrder : fieldOrder.Nodup := by decide

theorem mem_flagOrder (k : Flag) : k ∈ flagOrder := by cases k <;> decide

theorem flagIndex_lt (k : Flag) : flagIndex k < 5 := by cases k <;> decide

theorem flagIndex_inj {j k : Flag} (h : flagIndex j = flagIndex k) : j = k := by
  cases j <;> cases k <;> first | rfl | cases h

/-! ## The field loops -/

/-- An encoding loop that succeeds has the fragment of every field, and its bits are those of the
carrier it started from and of the fragments. -/
theorem encodeFields_ok {c : Cfg} {dt : FieldValues} {fs : List Field} {acc x : Carrier}
    (h : encodeFields c dt fs acc = .ok x) :
    ∃ frag : Field → Carrier,
      (∀ f ∈ fs, sectionEncode (fieldValue dt f) (catalog c f) = .ok (frag f)) ∧
      ∀ p, x.getLsbD p = true ↔ acc.getLsbD p = true ∨ ∃ f ∈ fs, (frag f).getLsbD p = true := by
  induction fs generalizing acc with
  | nil =>
    injection h with h; subst h
    exact ⟨fun _ => 0, by simp, by simp⟩
  | cons f fs ih =>
    unfold encodeFields at h
    split at h
    · cases h
    · rename_i y hy
      obtain ⟨frag, hfrag, hx⟩ := ih h
      refine ⟨fun g => if g = f then y else frag g, ?_, ?_⟩
      · intro g hg
        by_cases hgf : g = f
        · subst hgf; simpa using hy
        · simp only [hgf, if_false]
          exact hfrag g (by simpa [hgf] using hg)
      · intro p
        rw [hx p, BitVec.getLsbD_or]
        simp only [Bool.or_eq_true, List.mem_cons]
        constructor
        · rintro ((ha | hy') | ⟨g, hg, hgp⟩)
          · exact .inl ha
          · exact .inr ⟨f, .inl rfl, by simpa using hy'⟩
          · refine .inr ⟨g, .inr hg, ?_⟩
            by_cases hgf : g = f
            · have := hfrag g hg; rw [hgf, hy] at this; injection this with this
              simp [hgf, this, hgf ▸ hgp]
            · simpa [hgf] using hgp
        · rintro (ha | ⟨g, rfl | hg, hgp⟩)
          · exact .inl (.inl ha)
          · exact .inl (.inr (by simpa using hgp))
          · by_cases hgf : g = f
            · exact .inl (.inr (by simpa [hgf] using hgp))
            · exact .inr ⟨g, hg, by simpa [hgf] using hgp⟩

/-- An encoding loop that fails names a field out of range. -/
theorem encodeFields_error {c : Cfg} {dt : FieldValues} {fs : List Field} {acc : Carrier} {e : Error}
    (h : encodeFields c dt fs acc = .error e) : ∃ f ∈ fs, e = .range (some f) := by
  induction fs generalizing acc with
  | nil => cases h
  | cons f fs ih =>
    unfold encodeFields at h
    split at h
    · rename_i e' he
      injection h with h
      refine ⟨f, by simp, ?_⟩
      unfold sectionEncode at he
      split at he
      · injection he with he; rw [← h, ← he]; rfl
      · cases he
    · obtain ⟨g, hg, rfl⟩ := ih h
      exact ⟨g, by simp [hg], rfl⟩

/-- A decoding loop that succeeds has the value of every field it visits and keeps the others. -/
theorem decodeFields_ok {c : Cfg} {car : Carrier} {fs : List Field} {dt₀ dt : FieldValues}
    (hfs : fs.Nodup) (h : decodeFields c car fs dt₀ = .ok dt) :
    (∀ f ∈ fs, sectionDecode car (catalog c f) = .ok (fieldValue dt f)) ∧
    ∀ f, f ∉ fs → fieldValue dt f = fieldValue dt₀ f := by
  induction fs generalizing dt₀ with
  | nil => injection h with h; subst h; simp
  | cons f fs ih =>
    unfold decodeFields at h
    split at h
    · cases h
    · rename_i v hv
      obtain ⟨hin, hout⟩ := ih hfs.of_cons h
      have hf : f ∉ fs := (List.nodup_cons.mp hfs).1
      have hval : fieldValue dt f = v := by
        rw [hout f hf, fieldValue_setFieldValue, if_pos rfl]
      refine ⟨?_, ?_⟩
      · intro g hg
        rcases List.mem_cons.mp hg with rfl | hg
        · rw [hv, hval]
        · exact hin g hg
      · intro g hg
        simp only [List.mem_cons, not_or] at hg
        rw [hout g hg.2, fieldValue_setFieldValue, if_neg hg.1]

/-- A decoding loop completes when every section it visits does. -/
theorem decodeFields_of_ok {c : Cfg} {car : Carrier} {fs : List Field} {dt₀ : FieldValues}
    {v : Field → Value} (h : ∀ f ∈ fs, sectionDecode car (catalog c f) = .ok (v f)) :
    ∃ dt, decodeFields c car fs dt₀ = .ok dt := by
  induction fs generalizing dt₀ with
  | nil => exact ⟨dt₀, rfl⟩
  | cons f fs ih =>
    rw [decodeFields, h f (by simp)]
    exact ih fun g hg => h g (by simp [hg])

/-- A decoding loop that fails names a field that has a parity bit. -/
theorem decodeFields_error {c : Cfg} {car : Carrier} {fs : List Field} {dt₀ : FieldValues} {e : Error}
    (h : decodeFields c car fs dt₀ = .error e) :
    ∃ f ∈ fs, (catalog c f).pen = true ∧ e = .parity (some f) := by
  induction fs generalizing dt₀ with
  | nil => cases h
  | cons f fs ih =>
    unfold decodeFields at h
    split at h
    · rename_i e' he
      injection h with h
      obtain ⟨hp, hd⟩ | ⟨-, hd⟩ := sectionDecode_cases car (catalog c f) <;> rw [hd] at he
      · injection he with he
        refine ⟨f, by simp, ?_, by rw [← h, ← he]; rfl⟩
        unfold parityFails at hp
        simp only [Bool.and_eq_true] at hp
        exact hp.1
      · cases he
    · obtain ⟨g, hg, hp, rfl⟩ := ih h
      exact ⟨g, by simp [hg], hp, rfl⟩

/-! ## The flag loops -/

theorem insertFlags_getLsbD (c : Cfg) (fl : FlagSet) (ks : List Flag) (car : Carrier) (p : Nat) :
    (insertFlags c fl ks car).getLsbD p = true ↔
      car.getLsbD p = true ∨ ∃ k ∈ ks, fl.getLsbD (flagIndex k) = true ∧ p = (flagPos c k).toNat := by
  induction ks generalizing car with
  | nil => simp [insertFlags]
  | cons k ks ih =>
    rw [insertFlags, ih]
    cases h : fl.getLsbD (flagIndex k)
    · simp [h]
    · simp [h, bit_getLsbD, or_assoc]

theorem one_shiftLeft_getLsbD5 (n i : Nat) : (1#5 <<< n).getLsbD i = decide (i = n ∧ i < 5) := by
  simp only [BitVec.getLsbD_shiftLeft, BitVec.getLsbD_one]
  by_cases h : i = n <;> by_cases h' : i < 5 <;> simp [h, h']; omega

theorem readFlags_getLsbD (c : Cfg) (car : Carrier) (ks : List Flag) (fl : FlagSet) (i : Nat) :
    (readFlags c car ks fl).getLsbD i = true ↔
      fl.getLsbD i = true ∨ ∃ k ∈ ks, i = flagIndex k ∧ car.getLsbD (flagPos c k).toNat = true := by
  induction ks generalizing fl with
  | nil => simp [readFlags]
  | cons k ks ih =>
    have := flagIndex_lt k
    rw [readFlags, ih]
    cases h : car.getLsbD (flagPos c k).toNat
    · simp [h]
    · simp only [BitVec.getLsbD_or, one_shiftLeft_getLsbD5, Bool.or_eq_true, decide_eq_true_eq,
        List.mem_cons, exists_eq_or_imp, h, and_true, or_assoc, if_true]
      constructor <;> rintro (h1 | h1 | h1) <;> simp_all

/-- Each flag read is the carrier bit at its position (42_frame_codec.md R147). -/
theorem readFlags_flag (c : Cfg) (car : Carrier) (k : Flag) :
    (readFlags c car flagOrder 0#5).getLsbD (flagIndex k) = car.getLsbD (flagPos c k).toNat := by
  rw [Bool.eq_iff_iff, readFlags_getLsbD]
  constructor
  · rintro (h | ⟨j, -, hj, h⟩)
    · simp at h
    · rw [flagIndex_inj hj]; exact h
  · intro h; exact .inr ⟨k, mem_flagOrder k, rfl, h⟩

/-! ## The two frame functions -/

/-- What a frame encode that succeeds gives (42_frame_codec.md R140). -/
theorem frameEncode_ok {c : Cfg} {dt : FieldValues} {fl : FlagSet} {x : Carrier}
    (h : frameEncode c dt fl = .ok x) :
    ∃ frag : Field → Carrier,
      (∀ f, sectionEncode (fieldValue dt f) (catalog c f) = .ok (frag f)) ∧
      ∀ p, x.getLsbD p = true ↔ (∃ f, (frag f).getLsbD p = true) ∨
        ∃ k, fl.getLsbD (flagIndex k) = true ∧ p = (flagPos c k).toNat := by
  unfold frameEncode at h
  cases he : encodeFields c dt fieldOrder 0#64 with
  | error e => rw [he] at h; cases h
  | ok y =>
    rw [he] at h
    injection h with h
    obtain ⟨frag, hfrag, hy⟩ := encodeFields_ok he
    refine ⟨frag, fun f => hfrag f (mem_fieldOrder f), fun p => ?_⟩
    rw [← h, insertFlags_getLsbD, hy p]
    simp [mem_fieldOrder, mem_flagOrder]

/-- What a frame decode that succeeds gives (42_frame_codec.md R144). -/
theorem frameDecode_ok {c : Cfg} {car : Carrier} {dt : FieldValues} {fl : FlagSet}
    (h : frameDecode c car = .ok (dt, fl)) :
    (∀ f, sectionDecode car (catalog c f) = .ok (fieldValue dt f)) ∧
    fl = readFlags c car flagOrder 0#5 := by
  unfold frameDecode at h
  cases he : decodeFields c car fieldOrder FieldValues.zero with
  | error e => rw [he] at h; cases h
  | ok y =>
    rw [he] at h
    injection h with h
    injection h with h1 h2
    subst h1
    exact ⟨fun f => (decodeFields_ok nodup_fieldOrder he).1 f (mem_fieldOrder f), h2.symm⟩

/-- A frame decode completes when every section decode does (42_frame_codec.md R144). -/
theorem frameDecode_of_ok {c : Cfg} {car : Carrier} {dt : FieldValues}
    (h : ∀ f, sectionDecode car (catalog c f) = .ok (fieldValue dt f)) :
    frameDecode c car = .ok (dt, readFlags c car flagOrder 0#5) := by
  obtain ⟨dt', hdt'⟩ := decodeFields_of_ok (dt₀ := FieldValues.zero) (fs := fieldOrder) fun f _ => h f
  have : dt' = dt := by
    apply fieldValues_ext
    intro f
    have := (decodeFields_ok nodup_fieldOrder hdt').1 f (mem_fieldOrder f)
    rw [h f] at this; injection this with this; exact this.symm
  subst this
  simp [frameDecode, hdt', Except.map]

end Sys2Proof.Machine
end

