-- ==== Sys2Proof/Laws/PerInstr.lean ====
section
/-!
SUPPORT. The per-instruction family: the encoding of a well-formed operation is accepted by the decoder
and selects the same operation code (spec/30_encoding.md R71).
-/

namespace Sys2Proof.Laws.EncodeSelects

/-- The decoder accepts the encoding and reads an operation of the same code from it. -/
def Statement (i : Instr) : Prop :=
  i.wellFormed = true → ∃ j, decode (encode i) = .ok j ∧ opcode j = opcode i

theorem penc (val : Value) (n : Count) : Statement (.penc val n) :=
  fun h => ⟨.penc val n, if_pos h, rfl⟩

theorem pdec (bits : Pattern) (n : Count) : Statement (.pdec bits n) :=
  fun h => ⟨.pdec bits n, if_pos h, rfl⟩

theorem senc (val : Value) (d : SectionDesc) : Statement (.senc val d) := fun _ => ⟨_, rfl, rfl⟩

theorem sdec (car : Carrier) (d : SectionDesc) : Statement (.sdec car d) := fun _ => ⟨_, rfl, rfl⟩

theorem fenc (dt : FieldValues) (fl : FlagSet) : Statement (.fenc dt fl) := fun _ => ⟨_, rfl, rfl⟩

theorem fdec (car : Carrier) : Statement (.fdec car) := fun _ => ⟨_, rfl, rfl⟩

end Sys2Proof.Laws.EncodeSelects
end

