-- ==== Sys2Proof/Laws/Step.lean ====
section
/-!
SUPPORT. What an operation and a step can do, said once.
-/

namespace Sys2Proof.Machine

/-- The response of an operation under a configuration; `none` for a reserved count. -/
def responseOf (c : Cfg) : Instr → Option Response
  | .penc v n   => if Count.legal n then some (.ok (.pattern (pulseEncode v n.toNat))) else none
  | .pdec b n   => if Count.legal n then some (.ok (.value (pulseDecode b n.toNat))) else none
  | .senc v d   => some ((sectionEncode v d).map Result.carrier)
  | .sdec x d   => some ((sectionDecode x d).map Result.value)
  | .fenc dt fl => some ((frameEncode c dt fl).map Result.carrier)
  | .fdec x     => some ((frameDecode c x).map fun r => Result.frame r.1 r.2)

/-- Every operation answers its response or refuses a reserved count, and does nothing else. -/
theorem exec_eq (i : Instr) (s : State) :
    exec i s = match responseOf s.cfg i with
      | some r => .next (answer s r)
      | none   => .refused .reservedCount := by
  cases i <;> simp only [exec, execPenc, execPdec, execSenc, execSdec, execFenc, execFdec, responseOf]
  all_goals split <;> rfl

/-- What an operation that completes has done. -/
theorem exec_next {i : Instr} {s t : State} (h : exec i s = .next t) :
    ∃ r, responseOf s.cfg i = some r ∧ t = answer s r := by
  rw [exec_eq] at h
  split at h
  · rename_i r hr; injection h with h; exact ⟨r, hr, h.symm⟩
  · cases h

/-- What a step that completes has done. -/
theorem step_next {s t : State} (h : step s = .next t) :
    ∃ i r, decode s.req = .ok i ∧ responseOf s.cfg i = some r ∧ t = answer s r := by
  unfold step at h
  split at h
  · rename_i i hi
    obtain ⟨r, hr, rfl⟩ := exec_next h
    exact ⟨i, r, hi, hr, rfl⟩
  · cases h

/-- The result ports of a response. -/
def portsOf : Response → ResultPorts
  | .ok r    => resultPorts r
  | .error e => errorPorts e

theorem answer_eq (s : State) (r : Response) : answer s r = { s with res := portsOf r } := by
  cases r <;> rfl

/-- Completing with given ports is having a response with those ports. -/
theorem answers_iff (i : Instr) (s : State) (p : ResultPorts) :
    Answers i s p ↔ (responseOf s.cfg i).map portsOf = some p := by
  rw [Answers, exec_eq]
  cases h : responseOf s.cfg i with
  | none => simp
  | some r =>
    simp only [answer_eq, Option.map_some, Option.some.injEq]
    constructor
    · intro h'; injection h' with h'; injection h'
    · rintro rfl; rfl

theorem stepAnswers_iff (r : Request) (s : State) (p : ResultPorts) :
    StepAnswers r s p ↔ ∃ i, decode r = .ok i ∧ (responseOf s.cfg i).map portsOf = some p := by
  unfold StepAnswers step
  cases h : decode r with
  | error e => simp [h]
  | ok i =>
    simp only [fetch_eq, h]
    have := answers_iff i { s with req := r } p
    unfold Answers at this
    simp only [Except.ok.injEq, exists_eq_left']
    exact this


end Sys2Proof.Machine
end

