-- ==== Sys2Proof/Tests/Slice0.lean ====
section
/-!
SUPPORT. Tests. Expected results are those of spec/95_test_vectors.md, named at each test by their
number there, or are computed by hand from the rule named. The witnesses show that the hypotheses of
each statement of Certificates/Slice0/Obligations.lean can be met together.
-/

namespace Sys2Proof.Tests

open Sys2Proof.Machine

/-! ## Small states -/

/-- The defaults of 00_scope.md R6 with `POS_STD` at a given position. -/
def cfgAt (p : BitPos) : Cfg := ⟨31, 7, 12, 100, 31, 24, 1, p⟩

/-- A state with that configuration and every port 0. -/
def stateAt (p : BitPos) : State := ⟨cfgAt p, Request.zero, ResultPorts.zero⟩

/-- The result ports of an operation, if it completes. -/
def portsAfter (i : Instr) (s : State) : Option ResultPorts :=
  match exec i s with
  | .next t    => some t.res
  | .fault _   => none
  | .refused _ => none

/-- The refusal of an operation, if it is refused. -/
def refusalOf (o : Host.Outcome State Fault Refusal) : Option Refusal :=
  match o with
  | .refused r => some r
  | .next _    => none
  | .fault _   => none

/-- `CAT[MINUTE]`, `CAT[HOUR]` and `CAT[YEAR]` at the defaults (95_test_vectors.md section 2). -/
def minuteSec : SectionDesc := ⟨0x7F, 32, true, 31, 60⟩
def hourSec : SectionDesc := ⟨0x3F, 25, true, 24, 24⟩
def yearSec : SectionDesc := ⟨0xFF, 2, true, 1, 100⟩

/-! ## Well-formedness: an ill-formed operation for each check -/

theorem test_wellFormed_penc_9 : (Instr.penc 1 9).wellFormed = false := by decide
theorem test_wellFormed_pdec_15 : (Instr.pdec 0xFF 15).wellFormed = false := by decide
theorem test_wellFormed_penc_8 : (Instr.penc 1 8).wellFormed = true := by decide
theorem test_wellFormedSection_hole : wellFormedSection ⟨0x05, 0, false, 0, 4⟩ = false := by decide
theorem test_wellFormedSection_past63 : wellFormedSection ⟨0x7F, 60, true, 0, 60⟩ = false := by decide
theorem test_wellFormedSection_max : wellFormedSection ⟨0x07, 0, false, 0, 10⟩ = false := by decide
theorem test_wellFormedSection_ppos : wellFormedSection ⟨0x07, 4, true, 4, 8⟩ = false := by decide
theorem test_wellFormedSection_minute : wellFormedSection minuteSec = true := by decide
theorem test_inRange : (cfgAt 40).inRange = true ∧ ({ cfgAt 40 with maxDow := 9 }).inRange = false := by
  decide

/-! ## Decoding: `op` in bits 2:0, then the layout of log entry 2 -/

/-- PENC val=24, n=7 (Program 4): `op` 000, 24 at bit 3, 7 at bit 35. -/
theorem test_decode_penc : decodeTableWord 361 0x38000000C0 = some (.penc 24 7) := by decide
/-- PDEC bits=0x1E, n=7 (Program 4): `op` 001, 7 at bit 35, 0x1E at bit 39. -/
theorem test_decode_pdec : decodeTableWord 361 0xF3800000001 = some (.pdec 0x1E 7) := by decide
/-- SENC val=30, sec=CAT[MINUTE] (Program 2 step 1): `op` 010, 30 at bit 3, the packed descriptor at bit 111. -/
theorem test_decode_senc :
    decodeTableWord 361 (0x78FE07F * 2 ^ 111 + 0xF2) = some (.senc 30 minuteSec) := by decide
/-- SDEC sec=CAT[YEAR] (Program 2 step 8): `op` 011, the carrier at bit 47, the packed descriptor at bit 111. -/
theorem test_decode_sdec :
    decodeTableWord 361 (0xC80C2FF * 2 ^ 111 + 0x0000113024919940 * 2 ^ 47 + 3) =
      some (.sdec 0x0000113024919940 yearSec) := by decide
/-- FENC (Program 1 step 1): `op` 100, the six values from bit 164, the flags at bit 356. -/
theorem test_decode_fenc :
    decodeTableWord 361 ((0b01001 * 2 ^ 192 + 0x000000320000000600000003000000180000000C0000001E) * 2 ^ 164 + 4) =
      some (.fenc ⟨30, 12, 24, 3, 6, 50⟩ 0b01001) := by decide
/-- FDEC (Program 1 step 3): `op` 101, the carrier at bit 47. -/
theorem test_decode_fdec :
    decodeTableWord 361 (0x0000113024919940 * 2 ^ 47 + 5) = some (.fdec 0x0000113024919940) := by decide
/-- RS-1, RS-2: reserved operation codes. -/
theorem test_decode_reserved : decodeTableWord 8 6 = none ∧ decodeTableWord 8 7 = none := by decide
/-- Each table word with every other bit 0. -/
theorem test_decode_table :
    [0, 1, 2, 3, 4, 5].map (decodeTableWord 8) =
      [some (.penc 0 0), some (.pdec 0 0), some (.senc 0 ⟨0, 0, false, 0, 0⟩),
       some (.sdec 0 ⟨0, 0, false, 0, 0⟩), some (.fenc FieldValues.zero 0), some (.fdec 0)] := by decide
/-- The packed descriptors of 95_test_vectors.md section 2. -/
theorem test_pack :
    minuteSec.pack = 0x000000078FE07F ∧ hourSec.pack = 0x000000030C593F ∧
    (catalog (cfgAt 40) .day).pack = 0x00000003E0123F ∧ (catalog (cfgAt 40) .dow).pack = 0x00000000E00F07 ∧
    (catalog (cfgAt 40) .month).pack = 0x00000001800A1F ∧ yearSec.pack = 0x0000000C80C2FF := by decide

/-! ## One step from reset with an operation presented -/

theorem test_step_runs_fdec :
    (match step (State.reset.withFetchWord 8 5) with
      | .next t => t.res.ok
      | _ => false) = true := by decide
theorem test_step_refuses_6 :
    refusalOf (step (State.reset.withFetchWord 8 6)) = some .reservedOperation := by decide

/-! ## The operations -/

/-- PE-13, PE-29. -/
theorem test_penc_20_5 : portsAfter (.penc 20 5) (stateAt 40) = some { succeeded with rBits := 0x1A } := by
  decide
theorem test_penc_100_8 : portsAfter (.penc 100 8) (stateAt 40) = some { succeeded with rBits := 0xA0 } := by
  decide
/-- RS-3. -/
theorem test_penc_9 : refusalOf (exec (.penc 1 9) (stateAt 40)) = some .reservedCount := by decide
/-- PD-10, PD-6. -/
theorem test_pdec_B7_7 : portsAfter (.pdec 0xB7 7) (stateAt 40) = some { succeeded with rVal := 37 } := by
  decide
theorem test_pdec_0A_8 : portsAfter (.pdec 0x0A 8) (stateAt 40) = some { succeeded with rVal := 10 } := by
  decide
/-- SE-4, NW-2. -/
theorem test_senc_37 :
    portsAfter (.senc 37 minuteSec) (stateAt 40) = some { succeeded with rCar := 0x0000003780000000 } := by
  decide
theorem test_senc_past63 :
    portsAfter (.senc 37 ⟨0x7F, 60, true, 0, 60⟩) (stateAt 40) =
      some { succeeded with rCar := 0x7000000000000001 } := by decide
/-- SE-6, SE-40. -/
theorem test_senc_range :
    portsAfter (.senc 60 minuteSec) (stateAt 40) = some (failed 0b01 0b111) ∧
    portsAfter (.senc 0 ⟨0x7F, 32, true, 31, 0⟩) (stateAt 40) = some (failed 0b01 0b111) := by decide
/-- NW-4, NW-5, NW-1, NW-3. -/
theorem test_senc_illFormed :
    portsAfter (.senc 1 ⟨0x07, 4, true, 4, 8⟩) (stateAt 40) = some { succeeded with rCar := 0x10 } ∧
    portsAfter (.senc 2 ⟨0x07, 4, true, 4, 8⟩) (stateAt 40) = some { succeeded with rCar := 0x30 } ∧
    portsAfter (.senc 3 ⟨0x05, 0, false, 0, 4⟩) (stateAt 40) = some { succeeded with rCar := 0x1 } ∧
    portsAfter (.senc 9 ⟨0x07, 0, false, 0, 10⟩) (stateAt 40) = some { succeeded with rCar := 0x7 } := by
  decide
/-- SD-5, SD-8. -/
theorem test_sdec_even_flips :
    portsAfter (.sdec 0x0000003480000000 minuteSec) (stateAt 40) = some { succeeded with rVal := 34 } ∧
    portsAfter (.sdec 0xFFFFFF807FFFFFFF minuteSec) (stateAt 40) = some { succeeded with rVal := 0 } := by
  decide
/-- SD-4, SD-21. -/
theorem test_sdec_parity :
    portsAfter (.sdec 0x0000003580000000 minuteSec) (stateAt 40) = some (failed 0b10 0b111) ∧
    portsAfter (.sdec 0x0000000000000086 yearSec) (stateAt 40) = some (failed 0b10 0b111) := by decide
/-- FE-7, FE-4. -/
theorem test_fenc_all_flags :
    portsAfter (.fenc ⟨59, 23, 30, 6, 11, 99⟩ 0b11111) (stateAt 40) =
      some { succeeded with rCar := 0x00001F5947C34664 } := by decide
theorem test_fenc_std :
    portsAfter (.fenc ⟨15, 10, 12, 5, 11, 21⟩ 0b01000) (stateAt 40) =
      some { succeeded with rCar := 0x00000115A14AC484 } := by decide
/-- FE-8, FE-13. -/
theorem test_fenc_range :
    portsAfter (.fenc ⟨59, 23, 31, 7, 12, 99⟩ 0b11111) (stateAt 42) = some (failed 0b01 2) ∧
    portsAfter (.fenc ⟨59, 23, 12, 5, 11, 2021⟩ 0) (stateAt 42) = some (failed 0b01 5) := by decide
/-- FD-11, FD-13. -/
theorem test_fdec_reserved_bits :
    portsAfter (.fdec 0xFFFFE595A14AC485) (stateAt 42) =
      some { succeeded with rDt := ⟨15, 10, 12, 5, 11, 21⟩, rFl := 0b01100 } := by decide
theorem test_fdec_beyond_bounds :
    portsAfter (.fdec 0x0000007FFEFFFFFC) (stateAt 40) =
      some { succeeded with rDt := ⟨85, 45, 45, 7, 25, 165⟩ } := by decide
/-- FD-2, FD-7, FD-8. -/
theorem test_fdec_first_error :
    portsAfter (.fdec 0xFFFFFFFFFFFFFFFF) (stateAt 40) = some (failed 0b10 1) ∧
    portsAfter (.fdec 0x00000417A14AC4A4) (stateAt 40) = some (failed 0b10 0) ∧
    portsAfter (.fdec 0x00000415A14AC4A4) (stateAt 40) = some (failed 0b10 5) := by decide

/-! ## Witnesses of the statements' hypotheses -/

/-- An operation's answer, by evaluation. -/
theorem answers_of {i : Instr} {s : State} {p : ResultPorts}
    (h : (responseOf s.cfg i).map portsOf = some p) : Answers i s p := (answers_iff i s p).mpr h

/-- Ports with every operand port set. -/
def full (op : BitVec 3) (n : Count) : Request :=
  ⟨op, 37, n, 0xB7, 0x0000003780000000, 0x000000078FE07F, ⟨59, 23, 30, 6, 11, 99⟩, 0b10101⟩

theorem witness_StepRunsTheDecodedOperation :
    decode State.reset.req = .ok (.penc 0 0) ∧ decode (full 6 8) = .error (.reservedOperation 6) := by
  decide

theorem isPacked_minute : IsPacked 0x000000078FE07F minuteSec := by
  unfold IsPacked; decide

theorem witness_OperationCodesSelectOperations :
    IsPacked (full 0 8).sec minuteSec ∧ (full 0 8).op = 0b000 ∧ (full 0 8).n ≤ 8 ∧
    (full 1 8).op = 0b001 ∧ (full 1 8).n ≤ 8 ∧ (full 2 9).op = 0b010 ∧ (full 3 9).op = 0b011 ∧
    (full 4 9).op = 0b100 ∧ (full 5 9).op = 0b101 := ⟨isPacked_minute, by decide⟩

theorem witness_ReservedOperationCodesAreRefused :
    (full 6 0).op = 0b110 ∧ (full 7 0).op = 0b111 := by decide

theorem witness_ReservedCountsAreRefused :
    (9 ≤ (full 0 9).n ∧ (full 0 9).op = 0b000) ∧ (9 ≤ (full 1 15).n ∧ (full 1 15).op = 0b001) := by decide

theorem witness_DecodeOfEncode :
    [Instr.penc 4294967295 8, .pdec 0xFF 8, .senc 60 minuteSec, .sdec 0 minuteSec,
     .fenc FieldValues.zero 31, .fdec 0].all Instr.wellFormed = true := by decide

theorem witness_DecodedOperationsAreWellFormed : decode (full 0 8) = .ok (.penc 37 8) := by decide

theorem witness_UnlistedOperandPortsAreIgnored :
    let r := full 0 8
    let r' := { Request.zero with op := 0, val := 37, n := 8 }
    r ≠ r' ∧ r.op = r'.op ∧ (r.op = 0b000 → r.val = r'.val ∧ r.n = r'.n) ∧
    (r.op = 0b001 → r.bits = r'.bits ∧ r.n = r'.n) ∧ (r.op = 0b010 → r.val = r'.val ∧ r.sec = r'.sec) ∧
    (r.op = 0b011 → r.car = r'.car ∧ r.sec = r'.sec) ∧ (r.op = 0b100 → r.dt = r'.dt ∧ r.fl = r'.fl) ∧
    (r.op = 0b101 → r.car = r'.car) := by decide

theorem witness_PencSubtractsGreedily : (full 0 8).op = 0b000 ∧ (full 0 8).n ≤ 8 := by decide
theorem witness_PdecSumsTheSetWeights : (full 1 8).op = 0b001 ∧ (full 1 8).n ≤ 8 := by decide

/-- The largest representable value, at the largest count. -/
theorem witness_PulseRoundTrip : (8 : Count) ≤ 8 ∧ (165 : Value).toNat ≤ printedSum (8 : Count).toNat := by
  decide
theorem witness_RepresentableValues : (8 : Count) ≤ 8 ∧ (165 : Value).toNat ≤ printedSum (8 : Count).toNat := by
  decide
theorem witness_PencSaturates : (8 : Count) ≤ 8 ∧ printedSum (8 : Count).toNat < (166 : Value).toNat := by
  decide
theorem witness_CanonicalPatternClosedForm :
    ((4 : Count) ≤ 8 ∧ (15 : Value).toNat ≤ printedSum (4 : Count).toNat ∧ (4 : Count) ≤ 4) ∧
    ((5 : Count) ≤ 8 ∧ (25 : Value).toNat ≤ printedSum (5 : Count).toNat ∧ (5 : Count) ≤ 5) := by decide
theorem witness_PdecIgnoresInactiveBits :
    ∀ i < (7 : Count).toNat, (0xB7 : Pattern).getLsbD i = (0x37 : Pattern).getLsbD i := by decide
theorem witness_SmallCountsDecodeInBinary : (4 : Count) ≤ 4 := by decide

theorem witness_SencPlacesPatternAndParity :
    (full 2 0).op = 0b010 ∧ IsPacked (full 2 0).sec minuteSec ∧ (full 2 0).val < minuteSec.max ∧
    minuteSec.max ≤ ({ full 2 0 with val := 60 } : Request).val :=
  ⟨by decide, isPacked_minute, by decide, by decide⟩

theorem witness_RangeCheckIsExclusive :
    minuteSec.max.toNat ≤ (60 : Value).toNat ∧ (59 : Value).toNat < minuteSec.max.toNat ∧
    1 ≤ minuteSec.max := by decide

theorem answers_senc_37 :
    Answers (.senc 37 minuteSec) (stateAt 40) { succeeded with rCar := 0x0000003780000000 } :=
  answers_of (by decide)

theorem witness_FragmentParityIsEven :
    wellFormedSection minuteSec = true ∧ minuteSec.pen = true ∧
    Answers (.senc 37 minuteSec) (stateAt 40) { succeeded with rCar := 0x0000003780000000 } :=
  ⟨by decide, by decide, answers_senc_37⟩
theorem witness_FragmentParityIsEven_without :
    wellFormedSection ⟨0x3F, 18, false, 0, 31⟩ = true ∧
    Answers (.senc 12 ⟨0x3F, 18, false, 0, 31⟩) (stateAt 40) { succeeded with rCar := 0x0000000000480000 } :=
  ⟨by decide, answers_of (by decide)⟩
theorem witness_FragmentStaysInItsSection :
    Answers (.senc 37 minuteSec) (stateAt 40) { succeeded with rCar := 0x0000003780000000 } := answers_senc_37

theorem witness_SdecChecksParityThenDecodes :
    (full 3 0).op = 0b011 ∧ IsPacked (full 3 0).sec minuteSec ∧
    (∀ p < 64, (0x0000003700000000 : Carrier).getLsbD p = true ↔
      IsDataBit minuteSec p ∧ (full 3 0).car.getLsbD p = true) ∧
    (0x37 : Carrier) = 0x0000003700000000 >>> minuteSec.off.toNat ∧
    ¬(minuteSec.pen = true ∧ bitCount (0x0000003780000000 : Carrier) % 2 = 1) ∧
    (minuteSec.pen = true ∧ bitCount (0x0000003700000000 : Carrier) % 2 = 1) :=
  ⟨by decide, isPacked_minute, by unfold IsDataBit; decide, by decide, by decide, by decide⟩

theorem witness_SdecReadsOnlyItsSection :
    (0 : Carrier) ≠ 0xFFFFFF807FFFFFFF ∧ ∀ p < 64, IsDataBit minuteSec p ∨ IsParityBit minuteSec p →
      (0 : Carrier).getLsbD p = (0xFFFFFF807FFFFFFF : Carrier).getLsbD p := by
  unfold IsDataBit IsParityBit; decide

theorem witness_SdecHasNoRangeCheck :
    wellFormedSection minuteSec = true ∧ (85 : Value).toNat ≤ printedSum (bitCount minuteSec.mask) := by decide

theorem witness_SectionRoundTrip :
    wellFormedSection minuteSec = true ∧ (59 : Value) < minuteSec.max ∧
    ∀ p < 64, IsDataBit minuteSec p ∨ IsParityBit minuteSec p →
      (0xFFFFFF807FFFFFFF : Carrier).getLsbD p = false := by
  unfold IsDataBit IsParityBit; decide

/-- Bit 32 alone, and bits 32 and 33 together. -/
theorem flips_in_minute (p : Nat) :
    ((0x0000000100000000 : Carrier).getLsbD p = true ∨ (0x0000000300000000 : Carrier).getLsbD p = true) →
    IsDataBit minuteSec p := by
  by_cases hp : p < 64
  · revert p; unfold IsDataBit; decide
  · rw [BitVec.getLsbD_of_ge _ _ (by omega), BitVec.getLsbD_of_ge _ _ (by omega)]; simp

theorem witness_ParityDetectsOddFlips :
    wellFormedSection minuteSec = true ∧ minuteSec.pen = true ∧
    Answers (.sdec 0x0000003780000000 minuteSec) (stateAt 40) { succeeded with rVal := 37 } ∧
    (∀ p, (0x0000000100000000 : Carrier).getLsbD p = true → IsDataBit minuteSec p ∨ IsParityBit minuteSec p) ∧
    bitCount (0x0000000100000000 : Carrier) % 2 = 1 ∧
    (∀ p, (0x0000000300000000 : Carrier).getLsbD p = true → IsDataBit minuteSec p ∨ IsParityBit minuteSec p) ∧
    bitCount (0x0000000300000000 : Carrier) % 2 = 0 :=
  ⟨by decide, by decide, answers_of (by decide), fun p h => .inl (flips_in_minute p (.inl h)), by decide,
    fun p h => .inl (flips_in_minute p (.inr h)), by decide⟩

theorem witness_CatalogIsWellFormed :
    let c : Cfg := ⟨46, 8, 26, 166, 31, 24, 1, 40⟩
    c.inRange = true ∧ (c.pposMinute < 32 ∨ 38 < c.pposMinute) ∧ (c.pposHour < 25 ∨ 30 < c.pposHour) ∧
    (c.pposYear < 2 ∨ 9 < c.pposYear) := by decide

/-- The largest frame the defaults accept (FE-6). -/
def largest : FieldValues := ⟨59, 23, 30, 6, 11, 99⟩

/-- The hypotheses on the six values. -/
def valuesInRange (c : Cfg) (dt : FieldValues) : Bool :=
  decide (dt.minute < 60 ∧ dt.hour < 24 ∧ dt.day < c.maxDay ∧ dt.dow < c.maxDow ∧
    dt.month < c.maxMonth ∧ dt.year < c.maxYear)

theorem witness_FencOrsFragmentsAndFlags :
    (full 4 0).op = 0b100 ∧ (full 4 0).dt = largest ∧ valuesInRange (stateAt 40).cfg largest = true := by decide

/-- One frame for each clause: the named field at its bound, every field before it below its own. -/
theorem witness_FencNamesFirstFieldOutOfRange :
    let c := (stateAt 40).cfg
    ((60 : Value) ≤ 60) ∧ ((59 : Value) < 60 ∧ (24 : Value) ≤ 24) ∧
    ((23 : Value) < 24 ∧ c.maxDay ≤ 31) ∧ (30 < c.maxDay ∧ c.maxDow ≤ 7) ∧
    (6 < c.maxDow ∧ c.maxMonth ≤ 12) ∧ (11 < c.maxMonth ∧ c.maxYear ≤ 100) := by decide

/-- The carrier of Program 1. -/
theorem witness_FdecReadsFieldsAndFlags :
    let s := stateAt 40
    let r : Request := { Request.zero with op := 0b101, car := 0x0000113024919940 }
    r.op = 0b101 ∧
    Answers (.sdec r.car (catalog s.cfg .minute)) s { succeeded with rVal := 30 } ∧
    Answers (.sdec r.car (catalog s.cfg .hour)) s { succeeded with rVal := 12 } ∧
    Answers (.sdec r.car (catalog s.cfg .day)) s { succeeded with rVal := 24 } ∧
    Answers (.sdec r.car (catalog s.cfg .dow)) s { succeeded with rVal := 3 } ∧
    Answers (.sdec r.car (catalog s.cfg .month)) s { succeeded with rVal := 6 } ∧
    Answers (.sdec r.car (catalog s.cfg .year)) s { succeeded with rVal := 50 } :=
  ⟨rfl, answers_of (by decide), answers_of (by decide), answers_of (by decide), answers_of (by decide),
    answers_of (by decide), answers_of (by decide)⟩

theorem witness_FdecCompletesOnEvenParity :
    ∀ f ∈ [Field.minute, Field.hour, Field.year],
      bitCount ((0x0000007FFEFFFFFC : Carrier) &&&
        (dataMask (catalog (stateAt 40).cfg f) ||| parityMask (catalog (stateAt 40).cfg f))) % 2 = 0 := by
  decide

/-- FD-7 for the first clause, FD-5 for the second, FD-8 for the third. -/
theorem witness_FdecNamesFirstParityError :
    let s := stateAt 40
    Answers (.sdec 0x00000417A14AC4A4 (catalog s.cfg .minute)) s (failed 0b10 0b111) ∧
    (Answers (.sdec 0x00000415A04AC484 (catalog s.cfg .minute)) s { succeeded with rVal := 15 } ∧
      Answers (.sdec 0x00000415A04AC484 (catalog s.cfg .hour)) s (failed 0b10 0b111)) ∧
    (Answers (.sdec 0x00000415A14AC4A4 (catalog s.cfg .minute)) s { succeeded with rVal := 15 } ∧
      Answers (.sdec 0x00000415A14AC4A4 (catalog s.cfg .hour)) s { succeeded with rVal := 10 } ∧
      Answers (.sdec 0x00000415A14AC4A4 (catalog s.cfg .year)) s (failed 0b10 0b111)) :=
  ⟨answers_of (by decide), ⟨answers_of (by decide), answers_of (by decide)⟩,
    answers_of (by decide), answers_of (by decide), answers_of (by decide)⟩

theorem witness_FrameRoundTrip :
    (stateAt 40).cfg.inRange = true ∧ disjointLayout (stateAt 40).cfg = true ∧
    valuesInRange (stateAt 40).cfg largest = true := by decide

theorem witness_SharedStandardTimeBit :
    (stateAt 42).cfg.inRange = true ∧ (stateAt 42).cfg.posStd = 42 ∧
    pairwiseDisjoint (layout (stateAt 42).cfg [.antenna, .dstAnnounce, .dstActive, .leapAnnounce]) = true ∧
    disjointLayout (stateAt 42).cfg = false ∧ valuesInRange (stateAt 42).cfg largest = true := by decide

/-- FE-7's frame, and the same with another day. -/
theorem witness_FieldsAreIndependent :
    let s := stateAt 40
    let b : FieldValues := { largest with day := 12 }
    s.cfg.inRange = true ∧ disjointLayout s.cfg = true ∧
    (∀ g : Field, g ≠ .day → fieldValue largest g = fieldValue b g) ∧
    Answers (.fenc largest 31) s { succeeded with rCar := 0x00001F5947C34664 } ∧
    Answers (.fenc b 31) s { succeeded with rCar := 0x00001F59474B4664 } :=
  ⟨by decide, by decide, by intro g h; cases g <;> first | rfl | exact absurd rfl h,
    answers_of (by decide), answers_of (by decide)⟩

/-- FE-7's frame, and the same without the standard-time flag. -/
theorem witness_FlagsAreIndependent :
    let s := stateAt 40
    (∀ j : Flag, j ≠ .standardTime →
      (31 : FlagSet).getLsbD (flagIndex j) = (0b10111 : FlagSet).getLsbD (flagIndex j)) ∧
    Answers (.fenc largest 31) s { succeeded with rCar := 0x00001F5947C34664 } ∧
    Answers (.fenc largest 0b10111) s { succeeded with rCar := 0x00001E5947C34664 } :=
  ⟨by intro j h; cases j <;> first | rfl | exact absurd rfl h, answers_of (by decide), answers_of (by decide)⟩

theorem witness_FrameBitsOutsideTheLayout :
    Answers (.fenc largest 31) (stateAt 42) { succeeded with rCar := 0x00001E5947C34664 } ∧
    (0xFFFFE18000000001 : Carrier) &&& frameBits (stateAt 42).cfg = 0 ∧
    (stateAt 42).cfg.pposMinute = 31 ∧ (stateAt 42).cfg.pposHour = 24 ∧
    (stateAt 42).cfg.pposYear = 1 ∧ (stateAt 42).cfg.posStd = 42 :=
  ⟨answers_of (by decide), by decide⟩

/-- FD-9: day bit 20 flipped. -/
theorem witness_DateBitsAreUnprotected :
    let s := stateAt 40
    s.cfg.pposMinute = 31 ∧ s.cfg.pposHour = 24 ∧ s.cfg.pposYear = 1 ∧
    Answers (.fdec 0x00000415A14AC484) s { succeeded with rDt := ⟨15, 10, 12, 5, 11, 21⟩, rFl := 0b00100 } ∧
    ∀ p, (0x0000000000100000 : Carrier).getLsbD p = true → 10 ≤ p ∧ p ≤ 23 :=
  ⟨rfl, rfl, rfl, answers_of (by decide), fun p h => by
    have key : ∀ q < 64, (0x0000000000100000 : Carrier).getLsbD q = true → 10 ≤ q ∧ q ≤ 23 := by decide
    by_cases hp : p < 64
    · exact key p hp h
    · rw [BitVec.getLsbD_of_ge _ _ (by omega)] at h; cases h⟩

theorem witness_PrintedBoundsRefuseLegalDates :
    let c := (stateAt 40).cfg
    c.maxDay = 31 ∧ c.maxDow = 7 ∧ c.maxMonth = 12 ∧ (59 : Value) < 60 ∧ (23 : Value) < 24 ∧
    (30 : Value) < 31 ∧ (6 : Value) < 7 ∧ (99 : Value) < c.maxYear := by decide

theorem witness_WorkedFrame :
    State.reset.cfg = { Cfg.defaults with posStd := State.reset.cfg.posStd } ∧
    (stateAt 40).cfg = { Cfg.defaults with posStd := (stateAt 40).cfg.posStd } := ⟨rfl, rfl⟩

/-- A completing and, where the operation has one, a failing transaction of each operation. -/
theorem witness_ErrorsOfEachOperation :
    (∃ t, exec (.penc 1 8) (stateAt 40) = .next t) ∧ (∃ t, exec (.pdec 1 8) (stateAt 40) = .next t) ∧
    (∃ t, exec (.senc 60 minuteSec) (stateAt 40) = .next t ∧ t.res.ok = false) ∧
    (∃ t, exec (.sdec 1 ⟨1, 0, true, 1, 1⟩) (stateAt 40) = .next t ∧ t.res.ok = false) ∧
    (∃ t, exec (.fenc ⟨60, 0, 0, 0, 0, 0⟩ 0) (stateAt 40) = .next t ∧ t.res.ok = false) ∧
    (∃ t, exec (.fdec 2) (stateAt 40) = .next t ∧ t.res.ok = false) :=
  ⟨⟨_, rfl⟩, ⟨_, rfl⟩, ⟨_, rfl, by decide⟩, ⟨_, rfl, by decide⟩, ⟨_, rfl, by decide⟩, ⟨_, rfl, by decide⟩⟩

/-- A step that answers Ok, and one that answers an error; the second is a witness of
`ErrorsLeaveNoTrace` too. -/
theorem witness_NoPartialResult :
    (∃ t, step { stateAt 40 with req := full 2 0 } = .next t ∧ t.res.ok = true) ∧
    ∃ t, step { stateAt 40 with req := { full 2 0 with val := 60 } } = .next t ∧ t.res.ok = false :=
  ⟨⟨_, rfl, by decide⟩, ⟨_, rfl, by decide⟩⟩
theorem witness_ErrorsLeaveNoTrace :
    ∃ t, step { stateAt 40 with req := { full 2 0 with val := 60 } } = .next t ∧ t.res.ok = false :=
  witness_NoPartialResult.2

theorem witness_OperationsDriveOnlyTheirResults :
    (∃ t, exec (.senc 37 minuteSec) (stateAt 40) = .next t ∧ t.res.ok = true) ∧
    (∃ t, exec (.sdec 0 minuteSec) (stateAt 40) = .next t ∧ t.res.ok = true) ∧
    (∃ t, exec (.fenc largest 31) (stateAt 40) = .next t ∧ t.res.ok = true) ∧
    (∃ t, exec (.fdec 0) (stateAt 40) = .next t ∧ t.res.ok = true) :=
  ⟨⟨_, rfl, by decide⟩, ⟨_, rfl, by decide⟩, ⟨_, rfl, by decide⟩, ⟨_, rfl, by decide⟩⟩

/-- Two states that differ in their result ports alone. -/
theorem witness_TransactionsDoNotInteract :
    let s := stateAt 40
    let s' := { stateAt 40 with res := failed 1 2 }
    s ≠ s' ∧ s.req = s'.req ∧ s.cfg = s'.cfg ∧ ∃ t, step s = .next t :=
  ⟨by decide, rfl, rfl, _, rfl⟩

/-- A failing SENC after a PENC. -/
theorem witness_TransactionsAreIdempotent :
    ∃ t u, step (stateAt 40) = .next t ∧ step { t with req := { full 2 0 with val := 60 } } = .next u :=
  ⟨_, _, rfl, rfl⟩

theorem witness_StepKeepsTheInvariant :
    ∃ t, (stateAt 40).inv = true ∧ step (stateAt 40) = .next t := ⟨_, by decide, rfl⟩

theorem witness_EveryLegalRequestIsAnswered :
    ((full 1 8).op.toNat ≤ 5 ∧ ((full 1 8).op.toNat ≤ 1 → (full 1 8).n ≤ 8)) ∧
    ((full 5 9).op.toNat ≤ 5 ∧ ((full 5 9).op.toNat ≤ 1 → (full 5 9).n ≤ 8)) := by decide

end Sys2Proof.Tests
end

/-!
PROOFS. The pulse codec (spec/40_pulse_codec.md R100, R101, R102, R105): what PENC and PDEC answer at
the ports, and the loop of PENC as greedy subtraction.
-/

namespace Sys2Proof.Machine

/-! ## Requests that ask for PENC and PDEC, and their answers -/

theorem decode_penc {r : Request} (hop : r.op = 0b000) (hn : r.n ≤ 8) :
    decode r = .ok (.penc r.val r.n) := by
  simp [decode, withCount, hop, Count.legal_of_le hn]

theorem decode_pdec {r : Request} (hop : r.op = 0b001) (hn : r.n ≤ 8) :
    decode r = .ok (.pdec r.bits r.n) := by
  simp [decode, withCount, hop, Count.legal_of_le hn]

/-- A step answers as the operation its request decodes to. -/
theorem stepAnswers_of_answers {r : Request} {i : Instr} {s : State} {p : ResultPorts}
    (hi : decode r = .ok i) (h : Answers i s p) : StepAnswers r s p :=
  (stepAnswers_iff r s p).mpr ⟨i, hi, (answers_iff i s p).mp h⟩

theorem answers_penc {n : Count} (hn : n ≤ 8) (v : Value) (s : State) :
    Answers (.penc v n) s { succeeded with rBits := pulseEncode v n.toNat } :=
  (answers_iff _ _ _).mpr <| by
    simp [responseOf, Count.legal_of_le hn, portsOf, resultPorts_pattern]

theorem answers_pdec {n : Count} (hn : n ≤ 8) (b : Pattern) (s : State) :
    Answers (.pdec b n) s { succeeded with rVal := pulseDecode b n.toNat } :=
  (answers_iff _ _ _).mpr <| by
    simp [responseOf, Count.legal_of_le hn, portsOf, resultPorts_value]

/-! ## The weights taken above a bit -/

theorem takenAbove_succ (b : Pattern) (i n : Nat) :
    takenAbove b i (n + 1) =
      takenAbove b i n + if i < n ∧ b.getLsbD n then printedWeight n else 0 := by
  simp [takenAbove, List.range_succ]

theorem takenAbove_congr {a b : Pattern} {n : Nat} (h : ∀ j < n, a.getLsbD j = b.getLsbD j)
    (i : Nat) : takenAbove a i n = takenAbove b i n := by
  induction n with
  | zero => rfl
  | succ n ih =>
    rw [takenAbove_succ, takenAbove_succ, ih fun j hj => h j (by omega), h n (by omega)]

/-- Nothing is taken above the topmost bit in use. -/
theorem takenAbove_of_le (b : Pattern) {i n : Nat} (h : n ≤ i + 1) : takenAbove b i n = 0 := by
  induction n with
  | zero => rfl
  | succ n ih => rw [takenAbove_succ, ih (by omega), if_neg (by omega)]

/-! ## The loop of PENC is greedy -/

/-- What is left of the value after the weight of bit `n` has been tried. -/
def remainderAfter (n : Nat) (v : Value) : Value := if weight n ≤ v then v - weight n else v

theorem remainderAfter_toNat (n : Nat) (v : Value) :
    (remainderAfter n v).toNat =
      v.toNat - if printedWeight n ≤ v.toNat then printedWeight n else 0 := by
  unfold remainderAfter
  split
  · next h => rw [sub_weight_toNat h, if_pos ((weight_le_iff n v).mp h)]
  · next h => rw [if_neg (mt (weight_le_iff n v).mpr h), Nat.sub_zero]

/-- Below its top bit, a pattern is the pattern of what the top weight leaves. -/
theorem pulseEncode_low {i n : Nat} (hi : i < n) (v : Value) :
    (pulseEncode v (n + 1)).getLsbD i = (pulseEncode (remainderAfter n v) n).getLsbD i := by
  rw [pulseEncode_succ, remainderAfter]
  split
  · rw [BitVec.getLsbD_or, one_shiftLeft_getLsbD8]; simp [Nat.ne_of_lt hi]
  · rfl

/-- A bit in use is set exactly when its weight fits beside those taken above it (R100). -/
theorem pulseEncode_getLsbD_iff {n : Nat} (hn : n ≤ 8) (v : Value) {i : Nat} (hi : i < n) :
    (pulseEncode v n).getLsbD i = true ↔
      takenAbove (pulseEncode v n) i n + printedWeight i ≤ v.toNat := by
  induction n generalizing v with
  | zero => omega
  | succ n ih =>
    have htop := pulseEncode_top (n := n) (by omega) v
    obtain rfl | hin : i = n ∨ i < n := by omega
    · rw [takenAbove_of_le _ (Nat.le_refl _), htop, decide_eq_true_iff, Nat.zero_add]
    · have hrest := ih (by omega) (remainderAfter n v) hin
      rw [remainderAfter_toNat] at hrest
      rw [pulseEncode_low hin, hrest, takenAbove_succ, htop,
        takenAbove_congr (fun j hj => pulseEncode_low hj v) i]
      by_cases hle : printedWeight n ≤ v.toNat <;> simp [hin, hle]
      omega

theorem isGreedyPattern_pulseEncode {n : Nat} (hn : n ≤ 8) (v : Value) :
    IsGreedyPattern v.toNat n (pulseEncode v n) :=
  ⟨fun _ hi => pulseEncode_high v hi, fun _ hi => pulseEncode_getLsbD_iff hn v hi⟩

/-! ## The statements -/

/-- Settles O9: the pattern is the one the loop of R100 builds. -/
theorem pencSubtractsGreedily : Obligations.PencSubtractsGreedily := by
  intro s r hop hn
  have h := answers_penc hn r.val s
  exact ⟨pulseEncode r.val r.n.toNat, stepAnswers_of_answers (decode_penc hop hn) h, h,
    isGreedyPattern_pulseEncode hn r.val⟩

/-- Settles O10: the loop of R101 sums without overflow, and no sum exceeds `S(8)`. -/
theorem pdecSumsTheSetWeights : Obligations.PdecSumsTheSetWeights := by
  intro s r hop hn
  have h := answers_pdec hn r.bits s
  exact ⟨pulseDecode r.bits r.n.toNat, stepAnswers_of_answers (decode_pdec hop hn) h, h,
    pulseDecode_toNat hn r.bits, (pulseDecode_le hn r.bits).trans (printedSum_le hn)⟩

/-- Settles O11, by the round trip of the two loops. -/
theorem pulseRoundTrip : Obligations.PulseRoundTrip := by
  intro s v n hn hv
  have h := answers_pdec hn (pulseEncode v n.toNat) s
  rw [pulseDecode_pulseEncode hn hv] at h
  exact ⟨pulseEncode v n.toNat, answers_penc hn v s, h⟩

/-- Settles O14: with a count of 0 neither loop turns. -/
theorem noActiveBits : Obligations.NoActiveBits :=
  fun s v b => ⟨answers_penc (n := 0) (by decide) v s, answers_pdec (n := 0) (by decide) b s⟩

end Sys2Proof.Machine

/-!
PROOFS. The section codec (spec/41_section_codec.md R121, R123, R130, R133): what SENC and SDEC
answer at the ports, and the bits of a well-formed section's fragment.
-/

namespace Sys2Proof.Machine

/-! ## The answers of SENC and SDEC -/

theorem answers_senc_of_le {v : Value} {d : SectionDesc} (h : d.max ≤ v) (s : State) :
    Answers (.senc v d) s (failed 0b01 0b111) :=
  (answers_iff _ _ _).mpr <| by rw [responseOf, sectionEncode_of_le h]; rfl

/-- SENC succeeds with exactly the fragment the section codec gives. -/
theorem answers_senc_iff {v : Value} {d : SectionDesc} {s : State} {x : Carrier} :
    Answers (.senc v d) s { succeeded with rCar := x } ↔ sectionEncode v d = .ok x := by
  rw [answers_iff, responseOf]
  cases sectionEncode v d with
  | error e => simp [Except.map, portsOf, errorPorts, ResultPorts.zero, succeeded]
  | ok y => simp [Except.map, portsOf, resultPorts_carrier]

theorem answers_sdec_of_ok {c : Carrier} {d : SectionDesc} {v : Value}
    (h : sectionDecode c d = .ok v) (s : State) :
    Answers (.sdec c d) s { succeeded with rVal := v } :=
  (answers_iff _ _ _).mpr <| by rw [responseOf, h]; rfl

/-- An SDEC that reports an error reports a ParityError (R130). -/
theorem kind_of_answers_sdec_failed {c : Carrier} {d : SectionDesc} {s : State} {kind : BitVec 2}
    {f : BitVec 3} (h : Answers (.sdec c d) s (failed kind f)) : kind = 0b10 := by
  rw [answers_iff, responseOf] at h
  obtain ⟨-, hd⟩ | ⟨-, hd⟩ := sectionDecode_cases c d <;> rw [hd] at h
  · simp only [Except.map, portsOf, errorPorts_parity, Option.map_some, Option.some.injEq, failed,
      ResultPorts.mk.injEq] at h
    obtain ⟨-, hkind, -⟩ := h
    exact hkind.symm
  · simp [Except.map, portsOf, resultPorts_value, succeeded, failed] at h

/-! ## The counts and values the statements name -/

theorem bitCount_mask (d : SectionDesc) : bitCount d.mask = activeCount d :=
  (popcount_eq_bitCount d.mask).symm

theorem ofNat_patternValue {n : Nat} (hn : n ≤ 8) (b : Pattern) :
    BitVec.ofNat 32 (patternValue b n) = pulseDecode b n := by
  rw [← pulseDecode_toNat hn, BitVec.ofNat_toNat, BitVec.setWidth_eq]

/-! ## The bits of a well-formed section (10_state.md R31) -/

/-- The four conditions of R31, apart. -/
theorem wellFormedSection_iff (d : SectionDesc) :
    wellFormedSection d = true ↔
      d.mask.toNat = 2 ^ activeCount d - 1 ∧ d.off.toNat + activeCount d ≤ 64 ∧
      d.max.toNat ≤ weightSum (activeCount d) + 1 ∧
      (d.pen = true → d.ppos.toNat < d.off.toNat ∨ d.off.toNat + activeCount d ≤ d.ppos.toNat) := by
  cases hpen : d.pen <;> simp [wellFormedSection, hpen, and_assoc]

theorem mask_getLsbD_of_wellFormed {d : SectionDesc} (h : wellFormedSection d = true) (i : Nat) :
    d.mask.getLsbD i = decide (i < activeCount d) := by
  obtain ⟨hmask, -⟩ := (wellFormedSection_iff d).mp h
  rw [← BitVec.testBit_toNat, hmask, Nat.testBit_two_pow_sub_one]

/-- The parity bit of a well-formed section is none of its data bits. -/
theorem dataMask_getLsbD_ppos {d : SectionDesc} (h : wellFormedSection d = true)
    (hpen : d.pen = true) : (dataMask d).getLsbD d.ppos.toNat = false := by
  obtain ⟨-, -, -, hppos⟩ := (wellFormedSection_iff d).mp h
  have hapart := hppos hpen
  rw [dataMask_getLsbD, mask_getLsbD_of_wellFormed h]
  simp only [Bool.and_eq_false_iff, Bool.not_eq_false', decide_eq_false_iff_not, decide_eq_true_eq]
  omega

/-! ## A pattern placed with its parity bit -/

/-- The pattern in its section with the parity bit that makes the section even: what SENC gives, and
what SDEC accepts. -/
def fragmentOf (d : SectionDesc) (b : Pattern) : Carrier := place d b ||| parityBit d (place d b)

/-- A section encode that succeeds gives the fragment of its pulse pattern (R120). -/
theorem eq_fragmentOf_of_sectionEncode {v : Value} {d : SectionDesc} {x : Carrier}
    (h : sectionEncode v d = .ok x) : x = fragmentOf d (pulseEncode v (activeCount d)) :=
  (sectionEncode_eq_ok h).2

/-- A fragment written out: the masked pattern shifted to its offset, and its parity bit. -/
theorem fragmentOf_eq (d : SectionDesc) (b : Pattern) :
    fragmentOf d b = ((b &&& d.mask).setWidth 64 <<< d.off.toNat) |||
      (if d.pen && oddOnes (place d b) then 1#64 <<< d.ppos.toNat else 0) := by
  rw [BitVec.setWidth_and, BitVec.shiftLeft_and_distrib]; rfl

theorem fragmentOf_of_pen_false {d : SectionDesc} (h : d.pen = false) (b : Pattern) :
    fragmentOf d b = place d b := by
  rw [fragmentOf, parityBit_of_pen_false h]; exact BitVec.or_zero

/-- Without a parity bit the parity position does not matter (R123). -/
theorem sectionEncode_ppos_of_pen_false {d : SectionDesc} (h : d.pen = false) (v : Value)
    (q : BitPos) : sectionEncode v { d with ppos := q } = sectionEncode v d := by
  simp only [sectionEncode, parityBit, h, Bool.false_and]
  rfl

theorem place_getLsbD_ppos {d : SectionDesc} (h : wellFormedSection d = true)
    (hpen : d.pen = true) (b : Pattern) : (place d b).getLsbD d.ppos.toNat = false := by
  rw [← place_and_dataMask, BitVec.getLsbD_and, dataMask_getLsbD_ppos h hpen, Bool.and_false]

/-- Absorption, which lets a mask that holds a word take in more bits. -/
theorem and_or_absorb {w : Nat} (x y : BitVec w) : x &&& (x ||| y) = x := by
  apply BitVec.eq_of_getLsbD_eq
  intro i _
  rw [BitVec.getLsbD_and, BitVec.getLsbD_or]
  cases x.getLsbD i <;> simp

theorem parityBit_and_parityMask (d : SectionDesc) (x : Carrier) :
    parityBit d x &&& parityMask d = parityBit d x := by
  unfold parityBit parityMask
  cases d.pen <;> cases oddOnes x <;> simp

theorem parityBit_and_dataMask {d : SectionDesc} (h : wellFormedSection d = true) (x : Carrier) :
    parityBit d x &&& dataMask d = 0 := by
  apply BitVec.eq_of_getLsbD_eq
  intro p _
  rw [BitVec.getLsbD_and, parityBit_getLsbD]
  by_cases hp : d.pen = true ∧ p = d.ppos.toNat
  · obtain ⟨hpen, rfl⟩ := hp
    simp [dataMask_getLsbD_ppos h hpen]
  · grind

/-- The data bits of a fragment are the placed pattern. -/
theorem fragmentOf_and_dataMask {d : SectionDesc} (h : wellFormedSection d = true) (b : Pattern) :
    fragmentOf d b &&& dataMask d = place d b := by
  rw [fragmentOf, BitVec.and_or_distrib_right, place_and_dataMask, parityBit_and_dataMask h]
  exact BitVec.or_zero

/-- A fragment lies in its section, whatever its pattern (R124). -/
theorem fragmentOf_and_section (d : SectionDesc) (b : Pattern) :
    fragmentOf d b &&& (dataMask d ||| parityMask d) = fragmentOf d b := by
  have hplace : place d b &&& (dataMask d ||| parityMask d) = place d b := by
    rw [← place_and_dataMask, BitVec.and_assoc, and_or_absorb]
  have hparity : ∀ x, parityBit d x &&& (dataMask d ||| parityMask d) = parityBit d x := fun x => by
    rw [← parityBit_and_parityMask, BitVec.and_assoc, BitVec.or_comm, and_or_absorb]
  rw [fragmentOf, BitVec.and_or_distrib_right, hplace, hparity]

/-- The parity bit is 1 exactly when the data bits hold an odd number of ones (R123). -/
theorem fragmentOf_getLsbD_ppos {d : SectionDesc} (h : wellFormedSection d = true)
    (hpen : d.pen = true) (b : Pattern) :
    (fragmentOf d b).getLsbD d.ppos.toNat = oddOnes (place d b) := by
  rw [fragmentOf, BitVec.getLsbD_or, place_getLsbD_ppos h hpen, parityBit_getLsbD]
  simp [hpen]

theorem popcount_parityBit {d : SectionDesc} (hpen : d.pen = true) (x : Carrier) :
    popcount (parityBit d x) = popcount x % 2 := by
  unfold parityBit oddOnes
  obtain hx | hx := Nat.mod_two_eq_zero_or_one (popcount x)
  · have hzero : popcount (0 : Carrier) = 0 := by decide
    simpa [hpen, hx] using hzero
  · simp [hpen, hx, popcount_bit]

/-- The parity bit is counted beside the data bits, so that the fragment's count is even (R123). -/
theorem popcount_fragmentOf_even {d : SectionDesc} (h : wellFormedSection d = true)
    (hpen : d.pen = true) (b : Pattern) : popcount (fragmentOf d b) % 2 = 0 := by
  have hdisjoint : ∀ i, ¬((place d b).getLsbD i = true ∧
      (parityBit d (place d b)).getLsbD i = true) := by
    rintro i ⟨hplace, hparity⟩
    rw [parityBit_getLsbD] at hparity
    simp only [Bool.and_eq_true, decide_eq_true_eq] at hparity
    obtain ⟨-, rfl⟩ := hparity
    rw [place_getLsbD_ppos h hpen] at hplace
    cases hplace
  have hsum : popcount (fragmentOf d b) =
      popcount (place d b) + popcount (parityBit d (place d b)) := onesBelow_or _ _ hdisjoint 64
  rw [hsum, popcount_parityBit hpen]
  omega

/-! ## SDEC of a fragment -/

theorem parityFails_fragmentOf {d : SectionDesc} (h : wellFormedSection d = true) (b : Pattern) :
    parityFails d (fragmentOf d b) = false := by
  unfold parityFails
  rw [← BitVec.and_or_distrib_left, fragmentOf_and_section]
  cases hpen : d.pen
  · rfl
  · simp [oddOnes, popcount_fragmentOf_even h hpen]

/-- Extraction gives back the weights in use of the pattern a fragment was made of. -/
theorem extract_fragmentOf_getLsbD {d : SectionDesc} (h : wellFormedSection d = true) (b : Pattern)
    {i : Nat} (hi : i < activeCount d) : (extract d (fragmentOf d b)).getLsbD i = b.getLsbD i := by
  obtain ⟨-, hoff, -⟩ := (wellFormedSection_iff d).mp h
  have hlt : d.off.toNat + i < 64 := by omega
  have hmask : d.mask.getLsbD i = true := by simp [mask_getLsbD_of_wellFormed h, hi]
  have hbit : (place d b).getLsbD (d.off.toNat + i) = b.getLsbD i := by
    rw [place_getLsbD, Nat.add_sub_cancel_left, hmask]
    simp [hlt]
  have hextract : extract d (fragmentOf d b) = extract d (place d b) := by
    rw [extract, extract, fragmentOf_and_dataMask h, place_and_dataMask]
  rw [hextract, extract_getLsbD, hmask, hbit]
  simp [hlt]

/-- SDEC accepts every pattern placed with its parity bit, canonical or not (R130). -/
theorem sectionDecode_fragmentOf {d : SectionDesc} (h : wellFormedSection d = true) (b : Pattern) :
    sectionDecode (fragmentOf d b) d = .ok (pulseDecode b (activeCount d)) := by
  rw [sectionDecode_of_passes (parityFails_fragmentOf h b)]
  exact congrArg _ (pulseDecode_congr fun _ => extract_fragmentOf_getLsbD h b)

/-! ## The statements -/

/-- Settles O20: the section codec compares the value with `max` and with nothing else. -/
theorem rangeCheckIsExclusive : Obligations.RangeCheckIsExclusive := by
  intro s d
  have hin : ∀ v : Value, v.toNat < d.max.toNat →
      ∃ fragment : Carrier, Answers (.senc v d) s { succeeded with rCar := fragment } :=
    fun v hv => ⟨_, answers_senc_iff.mpr (sectionEncode_of_lt hv)⟩
  exact ⟨fun v hv => answers_senc_of_le hv s, hin, answers_senc_of_le (BitVec.le_refl _) s,
    fun hmax => hin _ (by bv_omega)⟩

/-- Settles O21: the fragment is the placed pattern with a parity bit apart from it. -/
theorem fragmentParityIsEven : Obligations.FragmentParityIsEven := by
  intro s d v x hwf hx
  have henc := answers_senc_iff.mp hx
  obtain rfl := eq_fragmentOf_of_sectionEncode henc
  refine ⟨fun hpen => ⟨?_, ?_⟩, fun hpen => ⟨?_, fun q => ?_⟩⟩
  · rw [fragmentOf_getLsbD_ppos hwf hpen, fragmentOf_and_dataMask hwf, oddOnes_iff]
  · rw [fragmentOf_and_section, ← popcount_eq_bitCount, popcount_fragmentOf_even hwf hpen]
  · rw [fragmentOf_and_dataMask hwf, fragmentOf_of_pen_false hpen]
  · rw [answers_senc_iff, sectionEncode_ppos_of_pen_false hpen, henc]

/-- Settles O25: SDEC fails on parity alone, and a fragment of any pattern passes that check. -/
theorem sdecHasNoRangeCheck : Obligations.SdecHasNoRangeCheck := by
  intro s d
  refine ⟨fun c m => rfl, fun c f h => ?_, fun hwf => ⟨fun v hv => ?_, fun b => ?_⟩, fun f => ?_⟩
  · exact absurd (kind_of_answers_sdec_failed h) (by decide)
  · rw [bitCount_mask] at hv
    have hdec := sectionDecode_fragmentOf hwf (pulseEncode v (activeCount d))
    rw [pulseDecode_pulseEncode (activeCount_le d) hv] at hdec
    exact ⟨_, answers_sdec_of_ok hdec s⟩
  · refine ⟨oddOnes (place d b), ?_⟩
    rw [← fragmentOf_eq, bitCount_mask, ofNat_patternValue (activeCount_le d)]
    exact answers_sdec_of_ok (sectionDecode_fragmentOf hwf b) s
  · rw [bitCount_mask, activeCount_catalog]

end Sys2Proof.Machine

/-!
PROOFS. The frame assembler (spec/42_frame_codec.md R141, R143): FENC on values in range, as the OR of
the fragments its field loop gathers and of the bits its flag loop adds.
-/

namespace Sys2Proof.Machine

/-! ## The field loop -/

/-- An encoding loop whose sections all complete ORs their fragments into its carrier (R141). -/
theorem encodeFields_of_ok {c : Cfg} {dt : FieldValues} {frag : Field → Carrier} {fs : List Field}
    (h : ∀ f ∈ fs, sectionEncode (fieldValue dt f) (catalog c f) = .ok (frag f)) (acc : Carrier) :
    encodeFields c dt fs acc = .ok (fs.foldl (fun car f => car ||| frag f) acc) := by
  induction fs generalizing acc with
  | nil => rfl
  | cons f fs ih =>
    rw [encodeFields, h f List.mem_cons_self]
    exact ih (fun g hg => h g (List.mem_cons_of_mem f hg)) _

/-! ## The flag loop -/

/-- The carrier bit of one flag: none when the flag is 0 (R143). -/
def flagBit (c : Cfg) (fl : FlagSet) (k : Flag) : Carrier :=
  if fl.getLsbD (flagIndex k) then bit (flagPos c k) else 0

theorem insertFlags_cons (c : Cfg) (fl : FlagSet) (k : Flag) (ks : List Flag) (car : Carrier) :
    insertFlags c fl (k :: ks) car = insertFlags c fl ks (car ||| flagBit c fl k) := by
  rw [insertFlags, flagBit]
  split
  · rfl
  · rw [BitVec.ofNat_eq_ofNat, BitVec.or_zero]

theorem insertFlags_eq_foldl (c : Cfg) (fl : FlagSet) (ks : List Flag) (car : Carrier) :
    insertFlags c fl ks car = ks.foldl (fun x k => x ||| flagBit c fl k) car := by
  induction ks generalizing car with
  | nil => rfl
  | cons k ks ih => rw [insertFlags_cons, ih, List.foldl_cons]

/-- The bits a frame's flags add, at the positions of 10_state.md R38 to R42. -/
theorem flagBits_eq (c : Cfg) (fl : FlagSet) :
    flagBits c fl = flagBit c fl .antenna ||| flagBit c fl .dstAnnounce ||| flagBit c fl .dstActive |||
      flagBit c fl .standardTime ||| flagBit c fl .leapAnnounce := rfl

theorem insertFlags_flagOrder (c : Cfg) (fl : FlagSet) (car : Carrier) :
    insertFlags c fl flagOrder car = car ||| flagBits c fl := by
  simp only [insertFlags_eq_foldl, flagOrder, List.foldl_cons, List.foldl_nil, flagBits_eq,
    BitVec.or_assoc]

/-! ## The answer of FENC -/

theorem frameEncode_of_ok {c : Cfg} {dt : FieldValues} {frag : Field → Carrier}
    (h : ∀ f, sectionEncode (fieldValue dt f) (catalog c f) = .ok (frag f)) (fl : FlagSet) :
    frameEncode c dt fl = .ok (frag .minute ||| frag .hour ||| frag .day ||| frag .dow |||
      frag .month ||| frag .year ||| flagBits c fl) := by
  rw [frameEncode, encodeFields_of_ok fun f _ => h f]
  simp only [Except.map, insertFlags_flagOrder, fieldOrder, List.foldl_cons, List.foldl_nil,
    BitVec.zero_or]

theorem decode_fenc {r : Request} (hop : r.op = 0b100) : decode r = .ok (.fenc r.dt r.fl) := by
  simp [decode, hop]

theorem answers_fenc_of_ok {dt : FieldValues} {fl : FlagSet} {s : State} {x : Carrier}
    (h : frameEncode s.cfg dt fl = .ok x) : Answers (.fenc dt fl) s { succeeded with rCar := x } :=
  (answers_iff _ _ _).mpr <| by rw [responseOf, h]; rfl

/-! ## The statement -/

/-- Settles O29: every section completes, so the field loop ORs all six fragments and the flag loop
adds the bits of the true flags. -/
theorem fencOrsFragmentsAndFlags : Obligations.FencOrsFragmentsAndFlags := by
  intro s r hop hminute hhour hday hdow hmonth hyear
  have hlt : ∀ f, fieldValue r.dt f < (catalog s.cfg f).max := by
    intro f
    cases f <;> assumption
  have hsec : ∀ f, ∃ x, sectionEncode (fieldValue r.dt f) (catalog s.cfg f) = .ok x :=
    fun f => ⟨_, sectionEncode_of_lt (hlt f)⟩
  choose frag hfrag using hsec
  have hsenc := fun f => answers_senc_iff (s := s).mpr (hfrag f)
  have hfenc := answers_fenc_of_ok (frameEncode_of_ok hfrag r.fl)
  exact ⟨frag .minute, frag .hour, frag .day, frag .dow, frag .month, frag .year,
    hsenc .minute, hsenc .hour, hsenc .day, hsenc .dow, hsenc .month, hsenc .year,
    stepAnswers_of_answers (decode_fenc hop) hfenc, hfenc⟩

end Sys2Proof.Machine

/-!
PROOFS. Errors (spec/60_exceptions.md R168, R169): the status of a response, and that a step reads
nothing an earlier response left behind.
-/

namespace Sys2Proof.Machine

/-! ## The status of a response -/

theorem resultPorts_status (r : Result) :
    (resultPorts r).ok = true ∧ (resultPorts r).ekind = 0 ∧ (resultPorts r).efield = 7 := by
  cases r <;> exact ⟨rfl, rfl, rfl⟩

theorem errorPorts_eq_failed (e : Error) :
    errorPorts e = failed (ekindCode e) (efieldCode (errorField e)) := rfl

theorem ekindCode_cases (e : Error) : ekindCode e = 1 ∨ ekindCode e = 2 := by
  cases e with
  | range f  => exact .inl rfl
  | parity f => exact .inr rfl

/-! ## What a step reads -/

/-- A response is driven over whatever the result ports held. -/
theorem answer_congr {s s' : State} (hreq : s.req = s'.req) (hcfg : s.cfg = s'.cfg) (r : Response) :
    answer s r = answer s' r := by
  rw [answer_eq, answer_eq, hreq, hcfg]

theorem exec_congr {s s' : State} (hreq : s.req = s'.req) (hcfg : s.cfg = s'.cfg) (i : Instr) :
    exec i s = exec i s' := by
  simp only [exec_eq, hcfg, answer_congr hreq hcfg]

/-- A step reads the request and the configuration alone (10_state.md R20). -/
theorem step_congr {s s' : State} (hreq : s.req = s'.req) (hcfg : s.cfg = s'.cfg) :
    step s = step s' := by
  simp only [step, fetch_eq, hreq, exec_congr hreq hcfg]

theorem step_next_cfg {s t : State} (h : step s = .next t) : t.cfg = s.cfg := by
  obtain ⟨i, r, -, -, rfl⟩ := step_next h
  exact answer_cfg s r

end Sys2Proof.Machine

/-! ## The statements

In a namespace of their own: `Machine.noPartialResult` is the predicate on result ports. -/

namespace Sys2Proof.Exceptions

open Machine

/-- Settles O43: a step that completes has driven a result or reported an error. -/
theorem noPartialResult : Obligations.NoPartialResult := by
  intro s t h
  obtain ⟨i, r, -, -, rfl⟩ := step_next h
  cases r with
  | ok x    => exact .inl (resultPorts_status x)
  | error e => exact .inr ⟨_, _, ekindCode_cases e, errorPorts_eq_failed e⟩

/-- Settles O47: a step keeps the configuration, and with the request that is all the next one reads;
so it holds after a success too. -/
theorem errorsLeaveNoTrace : Obligations.ErrorsLeaveNoTrace := by
  intro s t r h _
  have hcfg : t.cfg = s.cfg := step_next_cfg h
  exact step_congr rfl hcfg

end Sys2Proof.Exceptions

/-!
PROOFS. Requests (spec/30_encoding.md R70 to R73, R86, R87): the decoder by operation code, the
encoder it inverts, and the refusals of the reserved encodings.
-/

namespace Sys2Proof.Machine

/-! ## The decoder, one operation code at a time -/

theorem opcode_cases (op : BitVec 3) :
    op = 0b000 ∨ op = 0b001 ∨ op = 0b010 ∨ op = 0b011 ∨ op = 0b100 ∨ op = 0b101 ∨
      (op = 0b110 ∨ op = 0b111) := by
  revert op; decide

theorem decode_op_penc {r : Request} (hop : r.op = 0b000) :
    decode r = withCount r.n (.penc r.val r.n) := by
  simp [decode, hop]

theorem decode_op_pdec {r : Request} (hop : r.op = 0b001) :
    decode r = withCount r.n (.pdec r.bits r.n) := by
  simp [decode, hop]

theorem decode_senc {r : Request} (hop : r.op = 0b010) :
    decode r = .ok (.senc r.val (SectionDesc.unpack r.sec)) := by
  simp [decode, hop]

theorem decode_sdec {r : Request} (hop : r.op = 0b011) :
    decode r = .ok (.sdec r.car (SectionDesc.unpack r.sec)) := by
  simp [decode, hop]

theorem decode_fdec {r : Request} (hop : r.op = 0b101) : decode r = .ok (.fdec r.car) := by
  simp [decode, hop]

theorem decode_reserved {r : Request} (hop : r.op = 0b110 ∨ r.op = 0b111) :
    decode r = .error (.reservedOperation r.op) := by
  obtain hop | hop := hop <;> simp [decode, hop]

/-! ## Counts and packed descriptors -/

theorem legal_eq_false_of_reserved {n : Count} (h : 9 ≤ n) : Count.legal n = false := by
  rw [Bool.eq_false_iff, ne_eq, Count.legal_iff]
  have : (9 : Nat) ≤ n.toNat := h
  omega

theorem withCount_of_not_legal {n : Count} (h : Count.legal n = false) (i : Instr) :
    withCount n i = .error (.reservedCount n) := by
  simp [withCount, h]

theorem withCount_ok {n : Count} {i j : Instr} (h : withCount n i = .ok j) :
    Count.legal n = true ∧ i = j := by
  unfold withCount at h
  split at h
  · next hn => exact ⟨hn, Except.ok.inj h⟩
  · cases h

/-- A packed descriptor is what the decoder unpacks (R73). -/
theorem unpack_of_isPacked {w : BitVec 53} {d : SectionDesc} (h : IsPacked w d) :
    SectionDesc.unpack w = d := by
  obtain ⟨hmask, hoff, hpen, hppos, hmax⟩ := h
  rw [SectionDesc.unpack, hmask, hoff, hpen, hppos, hmax]

/-! ## Decoding and encoding -/

/-- What a request that decodes to an operation has shown: a legal count and the operation's code. -/
theorem decode_ok {r : Request} {i : Instr} (h : decode r = .ok i) :
    i.wellFormed = true ∧ opcode i = r.op := by
  obtain hop | hop | hop | hop | hop | hop | hop := opcode_cases r.op
  · obtain ⟨hn, rfl⟩ := withCount_ok ((decode_op_penc hop).symm.trans h)
    exact ⟨hn, hop.symm⟩
  · obtain ⟨hn, rfl⟩ := withCount_ok ((decode_op_pdec hop).symm.trans h)
    exact ⟨hn, hop.symm⟩
  · cases (decode_senc hop).symm.trans h
    exact ⟨rfl, hop.symm⟩
  · cases (decode_sdec hop).symm.trans h
    exact ⟨rfl, hop.symm⟩
  · cases (decode_fenc hop).symm.trans h
    exact ⟨rfl, hop.symm⟩
  · cases (decode_fdec hop).symm.trans h
    exact ⟨rfl, hop.symm⟩
  · cases (decode_reserved hop).symm.trans h

theorem encode_op (i : Instr) : (encode i).op = opcode i := by cases i <;> rfl

/-- The ports that carry a well-formed operation decode to it. -/
theorem decode_encode {i : Instr} (h : i.wellFormed = true) : decode (encode i) = .ok i := by
  cases i with
  | penc v n   => exact if_pos h
  | pdec b n   => exact if_pos h
  | senc v d   => exact congrArg (fun d => Except.ok (Instr.senc v d)) (SectionDesc.unpack_pack d)
  | sdec c d   => exact congrArg (fun d => Except.ok (Instr.sdec c d)) (SectionDesc.unpack_pack d)
  | fenc dt fl => rfl
  | fdec c     => rfl

/-- A request fits the 361 bits of its number (log entry 2). -/
theorem ofTableWord_toWord (r : Request) : Request.ofTableWord 361 r.toWord = r := by
  rw [Request.ofTableWord, Nat.mod_eq_of_lt r.toWord_lt, Request.ofWord_toWord]

/-- The decoder reads the ports R72 lists for the operation and no other. -/
theorem decode_congr {r r' : Request} (hop : r.op = r'.op)
    (hpenc : r.op = 0b000 → r.val = r'.val ∧ r.n = r'.n)
    (hpdec : r.op = 0b001 → r.bits = r'.bits ∧ r.n = r'.n)
    (hsenc : r.op = 0b010 → r.val = r'.val ∧ r.sec = r'.sec)
    (hsdec : r.op = 0b011 → r.car = r'.car ∧ r.sec = r'.sec)
    (hfenc : r.op = 0b100 → r.dt = r'.dt ∧ r.fl = r'.fl)
    (hfdec : r.op = 0b101 → r.car = r'.car) : decode r = decode r' := by
  obtain h | h | h | h | h | h | h := opcode_cases r.op
  · obtain ⟨hval, hn⟩ := hpenc h
    rw [decode_op_penc h, decode_op_penc (hop ▸ h), hval, hn]
  · obtain ⟨hbits, hn⟩ := hpdec h
    rw [decode_op_pdec h, decode_op_pdec (hop ▸ h), hbits, hn]
  · obtain ⟨hval, hsec⟩ := hsenc h
    rw [decode_senc h, decode_senc (hop ▸ h), hval, hsec]
  · obtain ⟨hcar, hsec⟩ := hsdec h
    rw [decode_sdec h, decode_sdec (hop ▸ h), hcar, hsec]
  · obtain ⟨hdt, hfl⟩ := hfenc h
    rw [decode_fenc h, decode_fenc (hop ▸ h), hdt, hfl]
  · rw [decode_fdec h, decode_fdec (hop ▸ h), hfdec h]
  · rw [decode_reserved h, decode_reserved (hop ▸ h), hop]

/-! ## A step by what its request decodes to, an operation by its response -/

theorem step_of_decode_ok {s : State} {i : Instr} (h : decode s.req = .ok i) : step s = exec i s := by
  rw [step, fetch_eq, h]

theorem step_of_decode_error {s : State} {e : Reject} (h : decode s.req = .error e) :
    step s = .refused (refuse e) := by
  rw [step, fetch_eq, h]

/-- Operations with the same response do the same at a state. -/
theorem exec_eq_of_responseOf_eq {i j : Instr} {s : State}
    (h : responseOf s.cfg i = responseOf s.cfg j) : exec i s = exec j s := by
  rw [exec_eq, exec_eq, h]

/-! ## The statements -/

/-- Settles O6: the decoder undoes the encoder port by port, and the number has room for every port. -/
theorem decodeOfEncode : Obligations.DecodeOfEncode := by
  intro i hi
  refine ⟨decode_encode hi, ?_⟩
  rw [decodeTableWord, ofTableWord_toWord, decode_encode hi]

/-- Settles O7: the decoder checks the count, and each operation code has its own constructor. -/
theorem decodedOperationsAreWellFormed : Obligations.DecodedOperationsAreWellFormed := by
  intro r i h
  obtain ⟨hwf, hop⟩ := decode_ok h
  exact ⟨hwf, (encode_op i).trans hop⟩

/-- Settles O8: the two requests decode alike, and a step answers what its request decodes to. -/
theorem unlistedOperandPortsAreIgnored : Obligations.UnlistedOperandPortsAreIgnored := by
  intro s r r' p hop hpenc hpdec hsenc hsdec hfenc hfdec
  rw [stepAnswers_iff, stepAnswers_iff, decode_congr hop hpenc hpdec hsenc hsdec hfenc hfdec]

/-- Settles O1, by the two branches of a step. -/
theorem stepRunsTheDecodedOperation : Obligations.StepRunsTheDecodedOperation :=
  fun _ => ⟨fun _ => step_of_decode_ok, fun _ => step_of_decode_error⟩

/-- Settles O2, one operation code at a time. -/
theorem operationCodesSelectOperations : Obligations.OperationCodesSelectOperations := by
  intro r d hd
  obtain rfl := unpack_of_isPacked hd
  exact ⟨decode_penc, decode_pdec, decode_senc, decode_sdec, decode_fenc, decode_fdec⟩

/-- Settles O3: each request has the code of its operation, a legal count where it takes one, and the
slices of its descriptor on `sec`. -/
theorem writtenRequestsDecode : Obligations.WrittenRequestsDecode := by
  refine ⟨decode_penc rfl (by decide), decode_pdec rfl (by decide), ?_, ?_, decode_fenc rfl,
    decode_fdec rfl⟩
  · rw [decode_senc rfl, unpack_of_isPacked (d := ⟨0x7F, 32, true, 31, 60⟩) (by unfold IsPacked; decide)]
  · rw [decode_sdec rfl, unpack_of_isPacked (d := ⟨0xFF, 2, true, 1, 100⟩) (by unfold IsPacked; decide)]

/-- Settles O4: the decoder rejects both codes before it reads any other port. -/
theorem reservedOperationCodesAreRefused : Obligations.ReservedOperationCodesAreRefused :=
  fun _ _ hop => step_of_decode_error (decode_reserved hop)

/-- Settles O5: the decoder and both meanings check the count. -/
theorem reservedCountsAreRefused : Obligations.ReservedCountsAreRefused := by
  intro s r hn
  have hlegal := legal_eq_false_of_reserved hn
  refine ⟨?_, by simp [exec_eq, responseOf, hlegal], by simp [exec_eq, responseOf, hlegal]⟩
  rintro (hop | hop)
  · exact step_of_decode_error (s := { s with req := r })
      ((decode_op_penc hop).trans (withCount_of_not_legal hlegal _))
  · exact step_of_decode_error (s := { s with req := r })
      ((decode_op_pdec hop).trans (withCount_of_not_legal hlegal _))

end Sys2Proof.Machine

/-!
PROOFS. The values and the patterns of the pulse codec (spec/40_pulse_codec.md R103 to R108;
30_encoding.md R81): which values PDEC returns, and the canonical patterns in closed form.
-/

namespace Sys2Proof.Machine

/-! ## PDEC -/

/-- PDEC completes with exactly the value its loop sums. -/
theorem answers_pdec_iff {n : Count} (hn : n ≤ 8) {b : Pattern} {s : State} {v : Value} :
    Answers (.pdec b n) s { succeeded with rVal := v } ↔ pulseDecode b n.toNat = v := by
  rw [answers_iff, responseOf, if_pos (Count.legal_of_le hn)]
  simp [portsOf, resultPorts_value]

/-- The first four weights are powers of two, so their sums are plain binary (R107). -/
theorem printedWeight_of_lt_four {n : Nat} (h : n < 4) : printedWeight n = 2 ^ n := by
  interval_cases n <;> rfl

theorem printedSum_of_le_four {n : Nat} (h : n ≤ 4) : printedSum n + 1 = 2 ^ n := by
  interval_cases n <;> rfl

theorem patternValue_of_le_four {n : Nat} (hn : n ≤ 4) (b : Pattern) :
    patternValue b n = b.toNat % 2 ^ n := by
  induction n with
  | zero => simp [patternValue, Nat.mod_one]
  | succ n ih =>
    rw [patternValue_succ, ih (by omega), Nat.mod_pow_succ, ← Nat.toNat_testBit,
      BitVec.testBit_toNat, printedWeight_of_lt_four (by omega)]
    cases b.getLsbD n <;> simp

/-! ## All bits in use -/

theorem ofNat_two_pow_sub_one_getLsbD {n : Nat} (hn : n ≤ 8) (i : Nat) :
    (BitVec.ofNat 8 (2 ^ n - 1)).getLsbD i = decide (i < n) := by
  rw [BitVec.getLsbD_ofNat, Nat.testBit_two_pow_sub_one]
  by_cases hi : i < n
  · have hi8 : i < 8 := by omega
    simp [hi, hi8]
  · simp [hi]

/-- From `S(n)` up the pattern is all ones (R104). -/
theorem pulseEncode_of_ge {n : Nat} (hn : n ≤ 8) {v : Value} (h : printedSum n ≤ v.toNat) :
    pulseEncode v n = BitVec.ofNat 8 (2 ^ n - 1) := by
  apply BitVec.eq_of_getLsbD_eq
  intro i _
  rw [ofNat_two_pow_sub_one_getLsbD hn]
  by_cases hi : i < n
  · rw [pulseEncode_saturates hn h i hi, decide_eq_true hi]
  · rw [pulseEncode_high v (Nat.not_lt.mp hi), decide_eq_false hi]

theorem pulseDecode_all_ones {n : Nat} (hn : n ≤ 8) :
    pulseDecode (BitVec.ofNat 8 (2 ^ n - 1)) n = BitVec.ofNat 32 (printedSum n) := by
  rw [← ofNat_patternValue hn, patternValue_of_all hn]
  intro i hi
  rw [ofNat_two_pow_sub_one_getLsbD hn, decide_eq_true hi]

/-! ## The canonical patterns in closed form (30_encoding.md R81) -/

/-- Setting a bit above a number adds its power of two. -/
theorem one_shiftLeft_or_ofNat {n m : Nat} (hn : n < 8) (hm : m < 2 ^ n) :
    1#8 <<< n ||| BitVec.ofNat 8 m = BitVec.ofNat 8 (2 ^ n + m) := by
  have hbit : 1#8 <<< n = BitVec.ofNat 8 (2 ^ n) := by interval_cases n <;> rfl
  rw [hbit, ← BitVec.ofNat_or, Nat.or_comm, Nat.or_two_pow_eq_add_of_lt hm, Nat.add_comm]

/-- Up to four bits, the pattern is the value in binary. -/
theorem pulseEncode_of_le_four {n : Nat} (hn : n ≤ 4) {v : Value} (h : v.toNat < 2 ^ n) :
    pulseEncode v n = BitVec.ofNat 8 v.toNat := by
  induction n generalizing v with
  | zero =>
    have : v.toNat = 0 := by omega
    rw [this]
    rfl
  | succ n ih =>
    have hw := printedWeight_of_lt_four (n := n) (by omega)
    rw [pulseEncode_succ]
    split
    · next hle =>
      have hle' := (weight_le_iff n v).mp hle
      have hsub := sub_weight_toNat hle
      rw [ih (by omega) (by omega), hsub, one_shiftLeft_or_ofNat (by omega) (by omega)]
      congr 1
      omega
    · next hlt =>
      have := mt (weight_le_iff n v).mpr hlt
      exact ih (by omega) (by omega)

/-- The number of tens the bits above the fourth hold: at most all of them. -/
def tensDigit (k v : Nat) : Nat := min (2 ^ k - 1) (v / 10)

/-- The tens digit over what is left of the value. -/
def tensPattern (k v : Nat) : Nat := 16 * tensDigit k v + (v - 10 * tensDigit k v)

theorem printedWeight_tens {k : Nat} (hk : k < 4) : printedWeight (4 + k) = 10 * 2 ^ k := by
  interval_cases k <;> rfl

theorem printedSum_tens {k : Nat} (hk : k ≤ 4) : printedSum (4 + k) = 10 * 2 ^ k + 5 := by
  interval_cases k <;> rfl

/-- What is left beside the tens digit fits the low four bits. -/
theorem sub_tensDigit_le {k v : Nat} (hv : v ≤ 10 * 2 ^ k + 5) : v - 10 * tensDigit k v ≤ 15 := by
  have := Nat.two_pow_pos k
  unfold tensDigit
  omega

theorem tensPattern_lt {k v : Nat} (hv : v ≤ 10 * 2 ^ k + 5) : tensPattern k v < 2 ^ (4 + k) := by
  have hlow := sub_tensDigit_le hv
  have hpos := Nat.two_pow_pos k
  have hdigit : tensDigit k v ≤ 2 ^ k - 1 := Nat.min_le_left _ _
  rw [tensPattern, Nat.pow_add]
  omega

/-- Taking the top ten weight takes its bit off the tens digit. -/
theorem tensPattern_succ_of_ge {k v : Nat} (hv : 10 * 2 ^ k ≤ v) :
    tensPattern (k + 1) v = 2 ^ (4 + k) + tensPattern k (v - 10 * 2 ^ k) := by
  have hpos := Nat.two_pow_pos k
  have hdigit : tensDigit (k + 1) v = 2 ^ k + tensDigit k (v - 10 * 2 ^ k) := by
    unfold tensDigit
    rw [Nat.pow_succ]
    omega
  rw [tensPattern, tensPattern, hdigit, Nat.pow_add]
  omega

/-- Below the top ten weight the digit has no use for its bit. -/
theorem tensPattern_succ_of_lt {k v : Nat} (hv : v < 10 * 2 ^ k) :
    tensPattern (k + 1) v = tensPattern k v := by
  have hdigit : tensDigit (k + 1) v = tensDigit k v := by
    unfold tensDigit
    rw [Nat.pow_succ]
    omega
  rw [tensPattern, tensPattern, hdigit]

/-- From four bits on, the pattern is a tens digit over plain binary. -/
theorem pulseEncode_tens {k : Nat} (hk : k ≤ 4) {v : Value} (h : v.toNat ≤ printedSum (4 + k)) :
    pulseEncode v (4 + k) = BitVec.ofNat 8 (tensPattern k v.toNat) := by
  induction k generalizing v with
  | zero =>
    rw [pulseEncode_of_le_four (Nat.le_refl 4) (Nat.lt_succ_of_le h)]
    simp [tensPattern, tensDigit]
  | succ k ih =>
    have hw := printedWeight_tens (k := k) (by omega)
    have hs := printedSum_tens (k := k) (by omega)
    rw [printedSum_tens hk, Nat.pow_succ] at h
    rw [← Nat.add_assoc, pulseEncode_succ]
    split
    · next hle =>
      have hle' := (weight_le_iff _ v).mp hle
      have hsub := sub_weight_toNat hle
      rw [hw] at hle' hsub
      rw [ih (by omega) (by omega), hsub, tensPattern_succ_of_ge hle',
        one_shiftLeft_or_ofNat (by omega) (tensPattern_lt (by omega))]
    · next hlt =>
      have hlt' := mt (weight_le_iff _ v).mpr hlt
      rw [hw] at hlt'
      rw [ih (by omega) (by omega), tensPattern_succ_of_lt (by omega)]

/-! ## The statements -/

/-- Settles O12: a pattern's value is at most `S(n)`, and every such value is that of its own pattern. -/
theorem representableValues : Obligations.RepresentableValues := by
  intro s v n hn
  refine ⟨fun ⟨b, hb⟩ => ?_, fun hv => ⟨pulseEncode v n.toNat, ?_⟩⟩
  · rw [← (answers_pdec_iff hn).mp hb]
    exact pulseDecode_le hn b
  · exact (answers_pdec_iff hn).mpr (pulseDecode_pulseEncode hn hv)

/-- Settles O13: every weight is reached, so every bit is set. -/
theorem pencSaturates : Obligations.PencSaturates := by
  intro s v n hn hv
  have henc := answers_penc hn v s
  rw [pulseEncode_of_ge hn (Nat.le_of_lt hv)] at henc
  exact ⟨henc, (answers_pdec_iff hn).mpr (pulseDecode_all_ones hn)⟩

/-- Settles O15, by the closed forms of the loop up to four bits and from four bits on. -/
theorem canonicalPatternClosedForm : Obligations.CanonicalPatternClosedForm := by
  intro s v n hn hv
  have henc := answers_penc hn v s
  refine ⟨fun hfour => ?_, fun hfive => ?_⟩
  · have hsum := printedSum_of_le_four (n := n.toNat) hfour
    rwa [pulseEncode_of_le_four hfour (by omega)] at henc
  · have hfive' : 5 ≤ n.toNat := hfive
    have hn' : n.toNat ≤ 8 := hn
    obtain ⟨k, hk⟩ : ∃ k, n.toNat = 4 + k := ⟨n.toNat - 4, by omega⟩
    rw [hk] at hv henc ⊢
    have hk4 : k ≤ 4 := by omega
    rw [pulseEncode_tens hk4 hv] at henc
    rw [printedSum_tens hk4] at hv
    rw [Nat.add_sub_cancel_left]
    exact ⟨sub_tensDigit_le hv, henc⟩

/-- Settles O16: the loop of R101 tests the bits below its count alone. -/
theorem pdecIgnoresInactiveBits : Obligations.PdecIgnoresInactiveBits := by
  intro s n a b h
  apply exec_eq_of_responseOf_eq
  rw [responseOf, responseOf, pulseDecode_congr h]

/-- Settles O17: the first four weights are powers of two. -/
theorem smallCountsDecodeInBinary : Obligations.SmallCountsDecodeInBinary := by
  intro s b n hn
  have hn4 : n.toNat ≤ 4 := hn
  have hn8 : n ≤ 8 := Nat.le_trans hn4 (by decide)
  rw [answers_pdec_iff hn8, ← ofNat_patternValue hn8, patternValue_of_le_four hn4]

/-- Settles O18: 2 and 8, or 10 alone. -/
theorem pdecAcceptsNonCanonicalPatterns : Obligations.PdecAcceptsNonCanonicalPatterns :=
  fun s => ⟨(answers_pdec_iff (by decide)).mpr (by decide), (answers_pdec_iff (by decide)).mpr (by decide),
    answers_penc (n := 8) (by decide) 10 s⟩

end Sys2Proof.Machine

/-!
PROOFS. The section codec, bit by bit (spec/41_section_codec.md R120 to R134): which carrier bits SENC
sets and SDEC reads, the round trip, and what flipped bits do to the parity check.
-/

namespace Sys2Proof.Machine

/-! ## The carrier bits of a section -/

/-- The data bits of a section and its parity bit (41_section_codec.md R124, R134). -/
def sectionMask (d : SectionDesc) : Carrier := dataMask d ||| parityMask d

theorem dataMask_getLsbD_iff (d : SectionDesc) (p : Nat) :
    (dataMask d).getLsbD p = true ↔ p < 64 ∧ IsDataBit d p := by
  rw [dataMask_getLsbD]
  simp [IsDataBit]

theorem parityMask_getLsbD_iff (d : SectionDesc) (p : Nat) :
    (parityMask d).getLsbD p = true ↔ IsParityBit d p := by
  rw [parityMask_getLsbD]
  simp [IsParityBit]

theorem sectionMask_getLsbD (d : SectionDesc) (p : Nat) :
    (sectionMask d).getLsbD p = ((dataMask d).getLsbD p || (parityMask d).getLsbD p) :=
  BitVec.getLsbD_or

theorem sectionMask_getLsbD_iff (d : SectionDesc) (p : Nat) :
    (sectionMask d).getLsbD p = true ↔ p < 64 ∧ (IsDataBit d p ∨ IsParityBit d p) := by
  have hppos : IsParityBit d p → p < 64 := fun ⟨_, hp⟩ => hp ▸ d.ppos.isLt
  rw [sectionMask_getLsbD, Bool.or_eq_true, dataMask_getLsbD_iff, parityMask_getLsbD_iff]
  tauto

/-- A carrier lies in a mask when each of its bits does. -/
theorem and_eq_self_iff {w : Nat} (x m : BitVec w) :
    x &&& m = x ↔ ∀ p, x.getLsbD p = true → m.getLsbD p = true := by
  constructor
  · intro h p hp
    rw [← h, BitVec.getLsbD_and, Bool.and_eq_true] at hp
    exact hp.2
  · intro h
    apply BitVec.eq_of_getLsbD_eq
    intro p _
    rw [BitVec.getLsbD_and, Bool.and_eq_left_iff_imp]
    exact h p

/-- Two carriers agree under a mask when they agree at each of its bits. -/
theorem and_eq_and_of_getLsbD {w : Nat} {a b m : BitVec w}
    (h : ∀ p, m.getLsbD p = true → a.getLsbD p = b.getLsbD p) : a &&& m = b &&& m := by
  apply BitVec.eq_of_getLsbD_eq
  intro p _
  rw [BitVec.getLsbD_and, BitVec.getLsbD_and]
  cases hm : m.getLsbD p with
  | false => simp
  | true  => rw [h p hm]

/-! ## The answer of SDEC -/

theorem answers_sdec_iff {c : Carrier} {d : SectionDesc} {s : State} {v : Value} :
    Answers (.sdec c d) s { succeeded with rVal := v } ↔ sectionDecode c d = .ok v := by
  rw [answers_iff, responseOf]
  cases sectionDecode c d with
  | error e => simp [Except.map, portsOf, errorPorts, ResultPorts.zero, succeeded]
  | ok w    => simp [Except.map, portsOf, resultPorts_value]

theorem answers_sdec_of_fails {c : Carrier} {d : SectionDesc} (h : parityFails d c = true)
    (s : State) : Answers (.sdec c d) s (failed 0b10 0b111) :=
  (answers_iff _ _ _).mpr <| by rw [responseOf, sectionDecode_of_fails h]; rfl

theorem answers_sdec_of_passes {c : Carrier} {d : SectionDesc} (h : parityFails d c = false)
    (s : State) :
    Answers (.sdec c d) s { succeeded with rVal := pulseDecode (extract d c) (activeCount d) } :=
  answers_sdec_of_ok (sectionDecode_of_passes h) s

theorem passes_of_sectionDecode_ok {c : Carrier} {d : SectionDesc} {v : Value}
    (h : sectionDecode c d = .ok v) : parityFails d c = false := by
  obtain ⟨-, hd⟩ | ⟨hpass, -⟩ := sectionDecode_cases c d
  · cases hd.symm.trans h
  · exact hpass

theorem passes_of_answers_sdec {c : Carrier} {d : SectionDesc} {s : State} {v : Value}
    (h : Answers (.sdec c d) s { succeeded with rVal := v }) : parityFails d c = false :=
  passes_of_sectionDecode_ok (answers_sdec_iff.mp h)

theorem fails_of_answers_sdec_failed {c : Carrier} {d : SectionDesc} {s : State} {kind : BitVec 2}
    {f : BitVec 3} (h : Answers (.sdec c d) s (failed kind f)) : parityFails d c = true := by
  by_contra hpass
  have hval := answers_sdec_of_passes (Bool.eq_false_iff.mpr hpass) s
  rw [answers_iff] at h hval
  cases h.symm.trans hval

/-! ## The parity check under flipped bits -/

theorem parityFails_of_pen {d : SectionDesc} (hpen : d.pen = true) (c : Carrier) :
    parityFails d c = oddOnes (c &&& sectionMask d) := by
  rw [parityFails, hpen, Bool.true_and, sectionMask, BitVec.and_or_distrib_left]

theorem oddOnes_xor (u v : Carrier) : oddOnes (u ^^^ v) = (oddOnes u ^^ oddOnes v) := by
  have hsum : popcount (u ^^^ v) % 2 = (popcount u + popcount v) % 2 := onesBelow_xor u v 64
  rw [oddOnes, oddOnes, oddOnes, hsum, Nat.add_mod]
  obtain hu | hu := Nat.mod_two_eq_zero_or_one (popcount u) <;>
  obtain hv | hv := Nat.mod_two_eq_zero_or_one (popcount v) <;> simp [hu, hv]

/-- Flips inside the section change its check by their own parity (R132). -/
theorem parityFails_xor {d : SectionDesc} (hpen : d.pen = true) {c flips : Carrier}
    (hin : flips &&& sectionMask d = flips) :
    parityFails d (c ^^^ flips) = (parityFails d c ^^ oddOnes flips) := by
  rw [parityFails_of_pen hpen, parityFails_of_pen hpen, ← oddOnes_xor]
  congr 1
  apply BitVec.eq_of_getLsbD_eq
  intro p _
  have hp := congrArg (fun x => x.getLsbD p) hin
  simp only [BitVec.getLsbD_and] at hp
  simp only [BitVec.getLsbD_and, BitVec.getLsbD_xor]
  rw [Bool.and_xor_distrib_right, hp]

/-- The data bits of a carrier with its parity bit are the carrier under the section's mask. -/
theorem data_or_parity_eq {d : SectionDesc} (hpen : d.pen = true) (c : Carrier) :
    (c &&& dataMask d) |||
      (if d.pen = true ∧ c.getLsbD d.ppos.toNat = true then 1#64 <<< d.ppos.toNat else 0) =
      c &&& sectionMask d := by
  have hparity : c &&& bit d.ppos = if c.getLsbD d.ppos.toNat = true then bit d.ppos else 0 := by
    apply BitVec.eq_of_getLsbD_eq
    intro p _
    rw [BitVec.getLsbD_and, bit_getLsbD]
    by_cases hp : p = d.ppos.toNat
    · subst hp
      cases hc : c.getLsbD d.ppos.toNat <;> simp [bit_getLsbD]
    · split <;> simp [bit_getLsbD, hp]
  rw [sectionMask, BitVec.and_or_distrib_left, parityMask, if_pos hpen, hparity]
  simp only [hpen, true_and]
  rfl

/-! ## The pattern of a carrier -/

/-- The pattern of a well-formed section is the carrier shifted down, as far as its weights go. -/
theorem extract_getLsbD_of_wellFormed {d : SectionDesc} (h : wellFormedSection d = true) (c : Carrier)
    {i : Nat} (hi : i < activeCount d) :
    (extract d c).getLsbD i = ((c >>> d.off.toNat).setWidth 8).getLsbD i := by
  obtain ⟨-, hoff, -⟩ := (wellFormedSection_iff d).mp h
  have hlt : d.off.toNat + i < 64 := by omega
  have hi8 : i < 8 := by have := activeCount_le d; omega
  rw [extract_getLsbD, mask_getLsbD_of_wellFormed h, BitVec.getLsbD_setWidth,
    BitVec.getLsbD_ushiftRight]
  simp [hi, hlt, hi8]

/-- The data bits shifted down are a pattern: no bit stands at 8 or above. -/
theorem data_shift_lt (d : SectionDesc) (c : Carrier) :
    ((c &&& dataMask d) >>> d.off.toNat).toNat < 2 ^ 8 := by
  apply Nat.lt_pow_two_of_testBit
  intro i hi
  rw [BitVec.testBit_toNat, BitVec.getLsbD_ushiftRight, BitVec.getLsbD_and, dataMask_getLsbD,
    Nat.add_sub_cancel_left, BitVec.getLsbD_of_ge d.mask i hi]
  simp

/-! ## The values of a well-formed section -/

/-- A value below `max` is representable by the section's weights (10_state.md R31). -/
theorem le_printedSum_of_lt_max {d : SectionDesc} (h : wellFormedSection d = true) {v : Value}
    (hv : v < d.max) : v.toNat ≤ printedSum (activeCount d) := by
  obtain ⟨-, -, hmax, -⟩ := (wellFormedSection_iff d).mp h
  rw [weightSum_eq_printedSum (activeCount_le d)] at hmax
  have : v.toNat < d.max.toNat := hv
  omega

/-- What SENC gives SDEC takes back, in every carrier that agrees with it on the section (R131). -/
theorem sectionDecode_of_sectionEncode {d : SectionDesc} (h : wellFormedSection d = true) {v : Value}
    {x c : Carrier} (hx : sectionEncode v d = .ok x) (hc : c &&& sectionMask d = x &&& sectionMask d) :
    sectionDecode c d = .ok v := by
  obtain ⟨hv, -⟩ := sectionEncode_eq_ok hx
  rw [sectionDecode_congr hc, eq_fragmentOf_of_sectionEncode hx, sectionDecode_fragmentOf h,
    pulseDecode_pulseEncode (activeCount_le d) (le_printedSum_of_lt_max h hv)]

/-! ## The catalog -/

/-- The upper bounds of 00_scope.md R6. -/
theorem bounds_of_inRange {c : Cfg} (h : c.inRange = true) :
    c.maxDay.toNat ≤ 46 ∧ c.maxDow.toNat ≤ 8 ∧ c.maxMonth.toNat ≤ 26 ∧ c.maxYear.toNat ≤ 166 := by
  simp only [Cfg.inRange, Bool.and_eq_true, decide_eq_true_eq] at h
  obtain ⟨⟨⟨⟨-, hday⟩, -, hdow⟩, -, hmonth⟩, -, hyear⟩ := h
  exact ⟨hday, hdow, hmonth, hyear⟩

/-- Each bound is at most one above the values its section represents (10_state.md R31). -/
theorem catalog_max_le {c : Cfg} (h : c.inRange = true) (f : Field) :
    (catalog c f).max.toNat ≤ printedSum (fieldWidth f) + 1 := by
  obtain ⟨hday, hdow, hmonth, hyear⟩ := bounds_of_inRange h
  cases f with
  | minute => exact Nat.le_of_ble_eq_true rfl
  | hour   => exact Nat.le_of_ble_eq_true rfl
  | day    => exact hday
  | dow    => exact hdow
  | month  => exact hmonth
  | year   => exact hyear

theorem catalog_mask_toNat (c : Cfg) (f : Field) :
    (catalog c f).mask.toNat = 2 ^ fieldWidth f - 1 := by cases f <;> rfl

theorem catalog_off_le (c : Cfg) (f : Field) : (catalog c f).off.toNat + fieldWidth f ≤ 64 := by
  cases f <;> exact Nat.le_of_ble_eq_true rfl

/-- In range, a catalog section is well-formed as soon as its parity bit is none of its data bits. -/
theorem wellFormedSection_catalog {c : Cfg} (h : c.inRange = true) (f : Field)
    (hppos : (catalog c f).pen = true → (catalog c f).ppos.toNat < (catalog c f).off.toNat ∨
      (catalog c f).off.toNat + fieldWidth f ≤ (catalog c f).ppos.toNat) :
    wellFormedSection (catalog c f) = true := by
  rw [wellFormedSection_iff, weightSum_eq_printedSum (activeCount_le _), activeCount_catalog]
  exact ⟨catalog_mask_toNat c f, catalog_off_le c f, catalog_max_le h f, hppos⟩

/-! ## The statements -/

/-- Settles O19: the placed pattern bit by bit, and the parity bit as the section codec adds it. -/
theorem sencPlacesPatternAndParity : Obligations.SencPlacesPatternAndParity := by
  intro s r d hop hd
  have hdec : decode r = .ok (.senc r.val d) := unpack_of_isPacked hd ▸ decode_senc hop
  refine ⟨fun hv => ?_, fun hv => ?_⟩
  · have herr := answers_senc_of_le hv s
    exact ⟨stepAnswers_of_answers hdec herr, herr⟩
  · have hpulse := isGreedyPattern_pulseEncode (activeCount_le d) r.val
    rw [← bitCount_mask] at hpulse
    refine ⟨pulseEncode r.val (bitCount d.mask), place d (pulseEncode r.val (bitCount d.mask)), hpulse,
      fun p hp => ?_, ?_⟩
    · rw [place_getLsbD]
      simp [hp, IsDataBit, and_assoc]
    · have henc := answers_senc_iff (s := s).mpr (sectionEncode_of_lt hv)
      rw [parityBit, ← bitCount_mask] at henc
      simp only [Bool.and_eq_true, oddOnes_iff] at henc
      exact ⟨stepAnswers_of_answers hdec henc, henc⟩

/-- Settles O22: a fragment lies in the section's mask. -/
theorem fragmentStaysInItsSection : Obligations.FragmentStaysInItsSection := by
  intro s d v x hx p hp
  have hin := (and_eq_self_iff x (sectionMask d)).mp (sectionEncode_within (answers_senc_iff.mp hx)) p hp
  exact ((sectionMask_getLsbD_iff d p).mp hin).2

/-- Settles O23: the data bits and the parity bit are the carrier under the two masks. -/
theorem sdecChecksParityThenDecodes : Obligations.SdecChecksParityThenDecodes := by
  intro s r d data pattern hop hd hdata hpattern
  have hdec : decode r = .ok (.sdec r.car d) := unpack_of_isPacked hd ▸ decode_sdec hop
  obtain rfl : data = r.car &&& dataMask d := by
    apply BitVec.eq_of_getLsbD_eq
    intro p hp
    rw [Bool.eq_iff_iff, hdata p hp, BitVec.getLsbD_and, Bool.and_eq_true, dataMask_getLsbD_iff]
    tauto
  subst hpattern
  have hcheck : parityFails d r.car = true ↔ d.pen = true ∧ bitCount ((r.car &&& dataMask d) |||
      (if d.pen = true ∧ r.car.getLsbD d.ppos.toNat = true then 1#64 <<< d.ppos.toNat else 0)) % 2 = 1 := by
    by_cases hpen : d.pen = true
    · rw [data_or_parity_eq hpen, ← oddOnes_iff, parityFails_of_pen hpen]
      simp [hpen]
    · simp [parityFails, hpen]
  refine ⟨data_shift_lt d r.car, fun hfails => ?_, fun hpasses => ?_⟩
  · have herr := answers_sdec_of_fails (hcheck.mpr hfails) s
    exact ⟨stepAnswers_of_answers hdec herr, herr⟩
  · have hval := answers_sdec_of_passes (Bool.eq_false_iff.mpr (mt hcheck.mp hpasses)) s
    refine ⟨_, ?_, ?_, stepAnswers_of_answers hdec hval, hval⟩
    · rw [pulseDecode_toNat (activeCount_le d), bitCount_mask]
      rfl
    · exact (pulseDecode_le (activeCount_le d) _).trans (printedSum_le (activeCount_le d))

/-- Settles O24: SDEC reads the carrier under the section's mask alone. -/
theorem sdecReadsOnlyItsSection : Obligations.SdecReadsOnlyItsSection := by
  intro s d a b h
  have hmask : a &&& sectionMask d = b &&& sectionMask d := by
    apply and_eq_and_of_getLsbD
    intro p hp
    obtain ⟨hlt, hbit⟩ := (sectionMask_getLsbD_iff d p).mp hp
    exact h p hlt hbit
  apply exec_eq_of_responseOf_eq
  rw [responseOf, responseOf, sectionDecode_congr hmask]

/-- Settles O26: the other bits of the carrier are none of the section's. -/
theorem sectionRoundTrip : Obligations.SectionRoundTrip := by
  intro s d v x hwf hv hx
  have henc := sectionEncode_of_lt hv
  refine ⟨_, answers_senc_iff.mpr henc, answers_sdec_iff.mpr (sectionDecode_of_sectionEncode hwf henc ?_)⟩
  apply and_eq_and_of_getLsbD
  intro p hp
  obtain ⟨hlt, hbit⟩ := (sectionMask_getLsbD_iff d p).mp hp
  rw [BitVec.getLsbD_or, hx p hlt hbit, Bool.or_false]

/-- Settles O27: an accepted carrier has even parity, so the check fails by the parity of the flips. -/
theorem parityDetectsOddFlips : Obligations.ParityDetectsOddFlips := by
  intro s d c flips v hwf hpen hc hin
  have hpass := passes_of_answers_sdec hc
  have hflips : flips &&& sectionMask d = flips := by
    rw [and_eq_self_iff]
    intro p hp
    exact (sectionMask_getLsbD_iff d p).mpr ⟨BitVec.lt_of_getLsbD hp, hin p hp⟩
  have hcheck : parityFails d (c ^^^ flips) = oddOnes flips := by
    rw [parityFails_xor hpen hflips, hpass, Bool.false_xor]
  refine ⟨fun hodd => ?_, fun heven => ?_⟩
  · exact answers_sdec_of_fails (hcheck.trans ((oddOnes_iff flips).mpr hodd)) s
  · have heven' : oddOnes flips = false := by
      rw [Bool.eq_false_iff, ne_eq, oddOnes_iff]
      omega
    rw [bitCount_mask, ofNat_patternValue (activeCount_le d),
      ← pulseDecode_congr fun _ hi => extract_getLsbD_of_wellFormed hwf (c ^^^ flips) hi]
    exact answers_sdec_of_passes (hcheck.trans heven') s

/-- Settles O28: three sections have no parity bit, and the hypotheses keep the other three parity bits
off their own data. -/
theorem catalogIsWellFormed : Obligations.CatalogIsWellFormed := by
  intro c hc hminute hhour hyear f
  apply wellFormedSection_catalog hc
  intro hpen
  obtain rfl | rfl | rfl := (catalog_pen c f).mp hpen
  · exact hminute
  · exact hhour
  · exact hyear

end Sys2Proof.Machine

/-!
PROOFS. The frame assembler's answers (spec/42_frame_codec.md R140 to R148, 60_exceptions.md R166):
which field an error names, when FENC and FDEC complete, and the bits of an encoded frame.
-/

namespace Sys2Proof.Machine

/-! ## The first field that fails (R142, R145; decision D11) -/

/-- The encoding loop reaches the first field out of range past the fields in range, and names it. -/
theorem encodeFields_of_range {c : Cfg} {dt : FieldValues} {pre post : List Field} {f : Field}
    (hpre : ∀ g ∈ pre, fieldValue dt g < (catalog c g).max)
    (hf : (catalog c f).max ≤ fieldValue dt f) (acc : Carrier) :
    encodeFields c dt (pre ++ f :: post) acc = .error (.range (some f)) := by
  induction pre generalizing acc with
  | nil => rw [List.nil_append, encodeFields, sectionEncode_of_le hf]; rfl
  | cons g pre ih =>
    rw [List.cons_append, encodeFields, sectionEncode_of_lt (hpre g List.mem_cons_self)]
    exact ih (fun k hk => hpre k (List.mem_cons_of_mem g hk)) _

/-- The decoding loop reaches the first field whose parity fails past the fields it accepts. -/
theorem decodeFields_of_fails {c : Cfg} {x : Carrier} {pre post : List Field} {f : Field}
    (hpre : ∀ g ∈ pre, parityFails (catalog c g) x = false)
    (hf : parityFails (catalog c f) x = true) (dt : FieldValues) :
    decodeFields c x (pre ++ f :: post) dt = .error (.parity (some f)) := by
  induction pre generalizing dt with
  | nil => rw [List.nil_append, decodeFields, sectionDecode_of_fails hf]; rfl
  | cons g pre ih =>
    rw [List.cons_append, decodeFields, sectionDecode_of_passes (hpre g List.mem_cons_self)]
    exact ih (fun k hk => hpre k (List.mem_cons_of_mem g hk)) _

theorem answers_fenc_of_range {s : State} {dt : FieldValues} {pre post : List Field} {f : Field}
    (horder : fieldOrder = pre ++ f :: post)
    (hpre : ∀ g ∈ pre, fieldValue dt g < (catalog s.cfg g).max)
    (hf : (catalog s.cfg f).max ≤ fieldValue dt f) (fl : FlagSet) :
    Answers (.fenc dt fl) s (failed 0b01 (efieldCode (some f))) :=
  (answers_iff _ _ _).mpr <| by
    rw [responseOf, frameEncode, horder, encodeFields_of_range hpre hf]; rfl

theorem answers_fdec_of_fails {s : State} {x : Carrier} {pre post : List Field} {f : Field}
    (horder : fieldOrder = pre ++ f :: post)
    (hpre : ∀ g ∈ pre, parityFails (catalog s.cfg g) x = false)
    (hf : parityFails (catalog s.cfg f) x = true) :
    Answers (.fdec x) s (failed 0b10 (efieldCode (some f))) :=
  (answers_iff _ _ _).mpr <| by
    rw [responseOf, frameDecode, horder, decodeFields_of_fails hpre hf]; rfl

/-! ## The answers of FENC and FDEC -/

/-- Six values below their bounds are encoded (R141). -/
theorem exists_frameEncode {c : Cfg} {dt : FieldValues}
    (h : ∀ f, fieldValue dt f < (catalog c f).max) (fl : FlagSet) :
    ∃ x, frameEncode c dt fl = .ok x :=
  ⟨_, frameEncode_of_ok (fun f => sectionEncode_of_lt (h f)) fl⟩

theorem answers_fenc_iff {dt : FieldValues} {fl : FlagSet} {s : State} {x : Carrier} :
    Answers (.fenc dt fl) s { succeeded with rCar := x } ↔ frameEncode s.cfg dt fl = .ok x := by
  rw [answers_iff, responseOf]
  cases frameEncode s.cfg dt fl with
  | error e => simp [Except.map, portsOf, errorPorts, ResultPorts.zero, succeeded]
  | ok y    => simp [Except.map, portsOf, resultPorts_carrier]

theorem answers_fdec_iff {x : Carrier} {s : State} {dt : FieldValues} {fl : FlagSet} :
    Answers (.fdec x) s { succeeded with rDt := dt, rFl := fl } ↔
      frameDecode s.cfg x = .ok (dt, fl) := by
  rw [answers_iff, responseOf]
  cases frameDecode s.cfg x with
  | error e => simp [Except.map, portsOf, errorPorts, ResultPorts.zero, succeeded]
  | ok y    => simp [Except.map, portsOf, resultPorts_frame, Prod.ext_iff]

theorem passes_of_pen_false {d : SectionDesc} (h : d.pen = false) (x : Carrier) :
    parityFails d x = false := by
  rw [parityFails, h, Bool.false_and]

/-- A carrier fails at no field but minute, hour and year (60_exceptions.md R163). -/
theorem passes_of_protected {c : Cfg} {x : Carrier}
    (hminute : parityFails (catalog c .minute) x = false)
    (hhour : parityFails (catalog c .hour) x = false)
    (hyear : parityFails (catalog c .year) x = false) (f : Field) :
    parityFails (catalog c f) x = false := by
  cases f with
  | minute => exact hminute
  | hour   => exact hhour
  | year   => exact hyear
  | day    => exact passes_of_pen_false rfl x
  | dow    => exact passes_of_pen_false rfl x
  | month  => exact passes_of_pen_false rfl x

/-- The six values of a carrier's patterns, whatever its parity. -/
def sectionValues (c : Cfg) (x : Carrier) : FieldValues :=
  let value := fun f => pulseDecode (extract (catalog c f) x) (activeCount (catalog c f))
  ⟨value .minute, value .hour, value .day, value .dow, value .month, value .year⟩

theorem fieldValue_sectionValues (c : Cfg) (x : Carrier) (f : Field) :
    fieldValue (sectionValues c x) f =
      pulseDecode (extract (catalog c f) x) (activeCount (catalog c f)) := by
  cases f <;> rfl

/-- A carrier whose sections all pass is decoded to their values (R144). -/
theorem frameDecode_of_passes {c : Cfg} {x : Carrier} (h : ∀ f, parityFails (catalog c f) x = false) :
    frameDecode c x = .ok (sectionValues c x, readFlags c x flagOrder 0#5) :=
  frameDecode_of_ok fun f => by rw [fieldValue_sectionValues, sectionDecode_of_passes (h f)]

/-- The values a frame decode gives are representable by their sections (60_exceptions.md R163). -/
theorem frameDecode_le {c : Cfg} {x : Carrier} {dt : FieldValues} {fl : FlagSet}
    (h : frameDecode c x = .ok (dt, fl)) (f : Field) :
    (fieldValue dt f).toNat ≤ printedSum (fieldWidth f) := by
  obtain ⟨hsec, -⟩ := frameDecode_ok h
  rw [← activeCount_catalog c f]
  exact sectionDecode_le (hsec f)

/-- FDEC reads the sections and the flag bits alone (R151). -/
theorem frameDecode_congr {c : Cfg} {a b : Carrier}
    (hsec : ∀ f, sectionDecode a (catalog c f) = sectionDecode b (catalog c f))
    (hflag : ∀ k, a.getLsbD (flagPos c k).toNat = b.getLsbD (flagPos c k).toNat) :
    frameDecode c a = frameDecode c b := by
  have hfields : ∀ fs dt, decodeFields c a fs dt = decodeFields c b fs dt := by
    intro fs
    induction fs with
    | nil => intro dt; rfl
    | cons f fs ih => intro dt; simp only [decodeFields, hsec f, ih]
  have hflags : ∀ ks fl, readFlags c a ks fl = readFlags c b ks fl := by
    intro ks
    induction ks with
    | nil => intro fl; rfl
    | cons k ks ih => intro fl; rw [readFlags, readFlags, hflag k, ih]
  rw [frameDecode, frameDecode, hfields, hflags]

/-- Two flag sets with the same five flags are equal. -/
theorem flagSet_ext {a b : FlagSet} (h : ∀ k, a.getLsbD (flagIndex k) = b.getLsbD (flagIndex k)) :
    a = b := by
  apply BitVec.eq_of_getLsbD_eq
  intro i hi
  have : ∃ k, flagIndex k = i := by
    interval_cases i
    exacts [⟨.antenna, rfl⟩, ⟨.dstAnnounce, rfl⟩, ⟨.dstActive, rfl⟩, ⟨.standardTime, rfl⟩,
      ⟨.leapAnnounce, rfl⟩]
  obtain ⟨k, rfl⟩ := this
  exact h k

/-! ## The bits of an encoded frame -/

/-- The fragment of one field of a frame (R141). -/
def fieldFragment (c : Cfg) (dt : FieldValues) (f : Field) : Carrier :=
  fragmentOf (catalog c f) (pulseEncode (fieldValue dt f) (activeCount (catalog c f)))

theorem fieldFragment_within {c : Cfg} {dt : FieldValues} {f : Field} {p : Nat}
    (h : (fieldFragment c dt f).getLsbD p = true) : (sectionMask (catalog c f)).getLsbD p = true :=
  (and_eq_self_iff _ _).mp (fragmentOf_and_section _ _) p h

/-- Frames with the same value of a field have the same fragment there. -/
theorem fieldFragment_congr {a b : FieldValues} {f : Field} (h : fieldValue a f = fieldValue b f)
    (c : Cfg) : fieldFragment c a f = fieldFragment c b f := by
  rw [fieldFragment, fieldFragment, h]

section

variable {c : Cfg} {dt : FieldValues} {fl : FlagSet} {x : Carrier}

theorem sectionEncode_of_frameEncode (h : frameEncode c dt fl = .ok x) (f : Field) :
    sectionEncode (fieldValue dt f) (catalog c f) = .ok (fieldFragment c dt f) := by
  obtain ⟨frag, hfrag, -⟩ := frameEncode_ok h
  rw [hfrag f, eq_fragmentOf_of_sectionEncode (hfrag f), fieldFragment]

/-- A frame's bits are those of its fragments and of its true flags (R141, R143). -/
theorem frameEncode_getLsbD_iff (h : frameEncode c dt fl = .ok x) (p : Nat) :
    x.getLsbD p = true ↔ (∃ f, (fieldFragment c dt f).getLsbD p = true) ∨
      ∃ k, fl.getLsbD (flagIndex k) = true ∧ p = (flagPos c k).toNat := by
  obtain ⟨frag, hfrag, hx⟩ := frameEncode_ok h
  obtain rfl : frag = fieldFragment c dt := funext fun f =>
    Except.ok.inj ((hfrag f).symm.trans (sectionEncode_of_frameEncode h f))
  exact hx p

end

/-! ## The statements -/

/-- The hypotheses of the frame statements, field by field. -/
theorem fieldValue_lt_max {s : State} {dt : FieldValues} (hminute : dt.minute < 60)
    (hhour : dt.hour < 24) (hday : dt.day < s.cfg.maxDay) (hdow : dt.dow < s.cfg.maxDow)
    (hmonth : dt.month < s.cfg.maxMonth) (hyear : dt.year < s.cfg.maxYear) (f : Field) :
    fieldValue dt f < (catalog s.cfg f).max := by
  cases f <;> assumption

/-- Settles O30: the loop reaches each field past the fields before it. -/
theorem fencNamesFirstFieldOutOfRange : Obligations.FencNamesFirstFieldOutOfRange := by
  intro s dt fl
  refine ⟨fun hmi => ?_, fun hmi hho => ?_, fun hmi hho hda => ?_, fun hmi hho hda hdw => ?_,
    fun hmi hho hda hdw hmo => ?_, fun hmi hho hda hdw hmo hye => ?_⟩
  · exact answers_fenc_of_range (f := .minute) (pre := []) rfl (by simp) hmi fl
  · exact answers_fenc_of_range (f := .hour) (pre := [.minute]) rfl
      (by simp only [List.forall_mem_cons]; exact ⟨hmi, by simp⟩) hho fl
  · exact answers_fenc_of_range (f := .day) (pre := [.minute, .hour]) rfl
      (by simp only [List.forall_mem_cons]; exact ⟨hmi, hho, by simp⟩) hda fl
  · exact answers_fenc_of_range (f := .dow) (pre := [.minute, .hour, .day]) rfl
      (by simp only [List.forall_mem_cons]; exact ⟨hmi, hho, hda, by simp⟩) hdw fl
  · exact answers_fenc_of_range (f := .month) (pre := [.minute, .hour, .day, .dow]) rfl
      (by simp only [List.forall_mem_cons]; exact ⟨hmi, hho, hda, hdw, by simp⟩) hmo fl
  · exact answers_fenc_of_range (f := .year) (pre := [.minute, .hour, .day, .dow, .month]) rfl
      (by simp only [List.forall_mem_cons]; exact ⟨hmi, hho, hda, hdw, hmo, by simp⟩) hye fl

/-- Settles O31: the six sections complete, and the flags are read bit by bit. -/
theorem fdecReadsFieldsAndFlags : Obligations.FdecReadsFieldsAndFlags := by
  intro s r dt hop hmi hho hda hdw hmo hye
  have hsec : ∀ f, sectionDecode r.car (catalog s.cfg f) = .ok (fieldValue dt f) := by
    intro f
    cases f with
    | minute => exact answers_sdec_iff.mp hmi
    | hour   => exact answers_sdec_iff.mp hho
    | day    => exact answers_sdec_iff.mp hda
    | dow    => exact answers_sdec_iff.mp hdw
    | month  => exact answers_sdec_iff.mp hmo
    | year   => exact answers_sdec_iff.mp hye
  have hdec := answers_fdec_iff.mpr (frameDecode_of_ok hsec)
  have hflag := readFlags_flag s.cfg r.car
  exact ⟨_, stepAnswers_of_answers (decode_fdec hop) hdec, hdec, hflag .antenna, hflag .dstAnnounce,
    hflag .dstActive, hflag .standardTime, hflag .leapAnnounce⟩

/-- Settles O32: the three checks are the parities named, and every value is its section's. -/
theorem fdecCompletesOnEvenParity : Obligations.FdecCompletesOnEvenParity := by
  intro s c heven
  have hpass : ∀ f ∈ [Field.minute, Field.hour, Field.year],
      parityFails (catalog s.cfg f) c = false := by
    intro f hf
    have hpen : (catalog s.cfg f).pen = true := (catalog_pen s.cfg f).mpr (by simpa using hf)
    have hcount : bitCount (c &&& sectionMask (catalog s.cfg f)) % 2 = 0 := heven f hf
    rw [parityFails_of_pen hpen, Bool.eq_false_iff, ne_eq, oddOnes_iff]
    omega
  have hdec := frameDecode_of_passes (passes_of_protected (hpass .minute (by simp))
    (hpass .hour (by simp)) (hpass .year (by simp)))
  have hle := frameDecode_le hdec
  exact ⟨_, _, answers_fdec_iff.mpr hdec, hle .minute, hle .hour, hle .day, hle .dow, hle .month,
    hle .year⟩

/-- Settles O33: the fields between hour and year have no parity bit. -/
theorem fdecNamesFirstParityError : Obligations.FdecNamesFirstParityError := by
  intro s c
  refine ⟨fun hmi => ?_, fun v hmi hho => ?_, fun v w hmi hho hye => ?_⟩
  · exact answers_fdec_of_fails (f := .minute) (pre := []) rfl (by simp)
      (fails_of_answers_sdec_failed hmi)
  · have hmi' := passes_of_answers_sdec hmi
    exact answers_fdec_of_fails (f := .hour) (pre := [.minute]) rfl
      (by simp only [List.forall_mem_cons]; exact ⟨hmi', by simp⟩) (fails_of_answers_sdec_failed hho)
  · have hmi' := passes_of_answers_sdec hmi
    have hho' := passes_of_answers_sdec hho
    have hfree : ∀ f, (catalog s.cfg f).pen = false → parityFails (catalog s.cfg f) c = false :=
      fun _ hpen => passes_of_pen_false hpen c
    exact answers_fdec_of_fails (f := .year) (pre := [.minute, .hour, .day, .dow, .month]) rfl
      (by
        simp only [List.forall_mem_cons]
        exact ⟨hmi', hho', hfree .day rfl, hfree .dow rfl, hfree .month rfl, by simp⟩)
      (fails_of_answers_sdec_failed hye)

/-- Settles O40: the checks are exclusive, so a value at its bound is refused and 0 is accepted. -/
theorem printedBoundsRefuseLegalDates : Obligations.PrintedBoundsRefuseLegalDates := by
  intro s dt fl hmaxDay hmaxDow hmaxMonth hminute hhour
  obtain ⟨-, -, hday, hdow, hmonth, -⟩ := fencNamesFirstFieldOutOfRange s dt fl
  rw [hmaxDay] at hday hdow hmonth
  rw [hmaxDow] at hdow hmonth
  rw [hmaxMonth] at hmonth
  refine ⟨fun hda => ?_, fun hda hdw => ?_, fun hda hdw hmo => ?_, fun hda hdw hmo hye => ?_⟩
  · exact hday hminute hhour (hda ▸ BitVec.le_refl _)
  · exact hdow hminute hhour hda (hdw ▸ BitVec.le_refl _)
  · exact hmonth hminute hhour hda hdw (hmo ▸ BitVec.le_refl _)
  · have hlt : ∀ f, fieldValue dt f < (catalog s.cfg f).max :=
      fieldValue_lt_max hminute hhour (by rw [hda, hmaxDay]; decide) (by rw [hdw, hmaxDow]; decide)
        (by rw [hmo, hmaxMonth]; decide) hye
    obtain ⟨x, hx⟩ := exists_frameEncode hlt fl
    exact ⟨x, answers_fenc_iff.mpr hx⟩

/-- The values of the worked frame (95_test_vectors.md S-4). -/
def workedValues : FieldValues := ⟨15, 10, 12, 5, 11, 21⟩

/-- No section depends on `POS_STD`. -/
theorem catalog_posStd (c : Cfg) (q : BitPos) (f : Field) :
    catalog { c with posStd := q } f = catalog c f := by cases f <;> rfl

theorem sectionEncode_workedValues (f : Field) :
    sectionEncode (fieldValue workedValues f) (catalog Cfg.defaults f) =
      .ok (fieldFragment Cfg.defaults workedValues f) := by
  cases f <;> exact sectionEncode_of_lt (by decide)

/-- Settles O41: the six fragments and the flag bit evaluated, and the two checks FDEC comes to. -/
theorem workedFrame : Obligations.WorkedFrame := by
  intro s hs
  have hcat : ∀ f, catalog s.cfg f = catalog Cfg.defaults f := fun f => by rw [hs, catalog_posStd]
  refine ⟨?_, ?_⟩
  · have hsec : ∀ f, sectionEncode (fieldValue workedValues f) (catalog s.cfg f) =
        .ok (fieldFragment Cfg.defaults workedValues f) := fun f => by
      rw [hcat, sectionEncode_workedValues]
    have hflags : flagBits s.cfg 0b00100 = 1#64 <<< 42 := by simp [flagBits]
    have henc := frameEncode_of_ok hsec 0b00100
    rw [hflags] at henc
    exact answers_fenc_iff.mpr (henc.trans (by decide))
  · refine answers_fdec_of_fails (f := .hour) (pre := [.minute]) rfl ?_ ?_
    · simp only [List.forall_mem_singleton, hcat]
      decide
    · rw [hcat]
      decide

end Sys2Proof.Machine

/-!
PROOFS. The layout of a frame (spec/20_memory.md R53, R57; 42_frame_codec.md R149 to R151): the frame
round trip where the layout keeps its sections apart, and what depends on which carrier bit.
-/

namespace Sys2Proof.Machine

/-! ## The bits of the catalog sections -/

theorem catalog_mask_getLsbD (c : Cfg) (f : Field) (i : Nat) :
    (catalog c f).mask.getLsbD i = decide (i < fieldWidth f) := by
  rw [← BitVec.testBit_toNat, catalog_mask_toNat, Nat.testBit_two_pow_sub_one]

theorem isDataBit_catalog_iff (c : Cfg) (f : Field) (p : Nat) :
    IsDataBit (catalog c f) p ↔
      (catalog c f).off.toNat ≤ p ∧ p < (catalog c f).off.toNat + fieldWidth f := by
  rw [IsDataBit, catalog_mask_getLsbD, decide_eq_true_iff]
  omega

/-! ## The masks of a layout, one by one (20_memory.md R57) -/

/-- What a layout lists a mask for. -/
inductive LayoutItem where
  | data (f : Field)
  | parity (f : Field)
  | flag (k : Flag)

/-- The mask of a layout's item. -/
def itemMask (c : Cfg) : LayoutItem → Carrier
  | .data f   => dataMask (catalog c f)
  | .parity f => parityMask (catalog c f)
  | .flag k   => bit (flagPos c k)

/-- The items of a layout, in its order. -/
def layoutItems (ks : List Flag) : List LayoutItem :=
  fieldOrder.map .data ++ fieldOrder.map .parity ++ ks.map .flag

theorem layout_eq_map (c : Cfg) (ks : List Flag) :
    layout c ks = (layoutItems ks).map (itemMask c) := by
  simp only [layout, layoutItems, List.map_append, List.map_map]
  rfl

theorem data_mem_layoutItems (f : Field) (ks : List Flag) : .data f ∈ layoutItems ks := by
  simp [layoutItems, mem_fieldOrder]

theorem parity_mem_layoutItems (f : Field) (ks : List Flag) : .parity f ∈ layoutItems ks := by
  simp [layoutItems, mem_fieldOrder]

theorem flag_mem_layoutItems {k : Flag} {ks : List Flag} (h : k ∈ ks) : .flag k ∈ layoutItems ks := by
  simp [layoutItems, h]

/-- In a disjoint layout, a bit of one item's mask is in no other item's. -/
theorem itemMask_apart {c : Cfg} {ks : List Flag} (h : pairwiseDisjoint (layout c ks) = true)
    {i j : LayoutItem} (hi : i ∈ layoutItems ks) (hj : j ∈ layoutItems ks) (hne : i ≠ j) {p : Nat}
    (hp : (itemMask c i).getLsbD p = true) : (itemMask c j).getLsbD p = false := by
  rw [pairwiseDisjoint, decide_eq_true_iff, layout_eq_map, List.pairwise_map] at h
  have hsymm : Std.Symm fun i j => itemMask c i &&& itemMask c j = 0 :=
    ⟨fun _ _ hij => (BitVec.and_comm _ _).trans hij⟩
  have hand : itemMask c i &&& itemMask c j = 0 := h.forall hi hj hne
  have hbit := congrArg (fun x => x.getLsbD p) hand
  simpa [hp] using hbit

/-! ## A layout that keeps its sections apart -/

/-- No carrier bit is in two sections, or a data bit and the parity bit of one, or in a section and at
a flag position. Flags may share a position. -/
structure SectionsApart (c : Cfg) : Prop where
  sections : ∀ f g, f ≠ g → ∀ p, (sectionMask (catalog c f)).getLsbD p = true →
    (sectionMask (catalog c g)).getLsbD p = false
  parity : ∀ f p, (dataMask (catalog c f)).getLsbD p = true →
    (parityMask (catalog c f)).getLsbD p = false
  flags : ∀ f k, (sectionMask (catalog c f)).getLsbD (flagPos c k).toNat = false

theorem flagPos_mask_getLsbD (c : Cfg) (k : Flag) :
    (itemMask c (.flag k)).getLsbD (flagPos c k).toNat = true := by
  rw [itemMask, bit_getLsbD, decide_eq_true rfl]

/-- A disjoint layout whose flags stand at every flag position keeps the sections apart. -/
theorem sectionsApart_of_disjoint {c : Cfg} {ks : List Flag}
    (h : pairwiseDisjoint (layout c ks) = true)
    (hks : ∀ k, ∃ j ∈ ks, flagPos c j = flagPos c k) : SectionsApart c where
  sections f g hne p hp := by
    have hdata : ∀ i, i ∈ layoutItems ks → i ≠ .data g → i ≠ .parity g →
        (itemMask c i).getLsbD p = true → (sectionMask (catalog c g)).getLsbD p = false :=
      fun i hi hd hq hip => by
        rw [sectionMask_getLsbD, Bool.or_eq_false_iff]
        exact ⟨itemMask_apart h hi (data_mem_layoutItems g ks) hd hip,
          itemMask_apart h hi (parity_mem_layoutItems g ks) hq hip⟩
    rw [sectionMask_getLsbD, Bool.or_eq_true] at hp
    obtain hp | hp := hp
    · exact hdata (.data f) (data_mem_layoutItems f ks) (by simp [hne]) (by simp) hp
    · exact hdata (.parity f) (parity_mem_layoutItems f ks) (by simp) (by simp [hne]) hp
  parity f p hp :=
    itemMask_apart h (data_mem_layoutItems f ks) (parity_mem_layoutItems f ks) (by simp) hp
  flags f k := by
    obtain ⟨j, hj, hpos⟩ := hks k
    have hbit := flagPos_mask_getLsbD c j
    rw [← hpos, sectionMask_getLsbD, Bool.or_eq_false_iff]
    exact ⟨itemMask_apart h (flag_mem_layoutItems hj) (data_mem_layoutItems f ks) (by simp) hbit,
      itemMask_apart h (flag_mem_layoutItems hj) (parity_mem_layoutItems f ks) (by simp) hbit⟩

theorem sectionsApart_of_disjointLayout {c : Cfg} (h : disjointLayout c = true) : SectionsApart c :=
  sectionsApart_of_disjoint h fun k => ⟨k, mem_flagOrder k, rfl⟩

/-- In a disjoint layout no two flags share a position. -/
theorem flagPos_inj {c : Cfg} (h : disjointLayout c = true) {j k : Flag}
    (hpos : flagPos c j = flagPos c k) : j = k := by
  by_contra hne
  have hj : (itemMask c (.flag k)).getLsbD (flagPos c j).toNat = false :=
    itemMask_apart h (flag_mem_layoutItems (mem_flagOrder j)) (flag_mem_layoutItems (mem_flagOrder k))
      (by simp [hne]) (flagPos_mask_getLsbD c j)
  rw [hpos, flagPos_mask_getLsbD] at hj
  cases hj

/-- In range, sections kept apart are well-formed: each parity bit is off its own data. -/
theorem SectionsApart.wellFormed {c : Cfg} (h : SectionsApart c) (hc : c.inRange = true) (f : Field) :
    wellFormedSection (catalog c f) = true := by
  apply wellFormedSection_catalog hc
  intro hpen
  by_contra hin
  have hdata : IsDataBit (catalog c f) (catalog c f).ppos.toNat :=
    (isDataBit_catalog_iff c f _).mpr (by omega)
  have hparity := (parityMask_getLsbD_iff (catalog c f) _).mpr ⟨hpen, rfl⟩
  rw [h.parity f _ ((dataMask_getLsbD_iff _ _).mpr ⟨(catalog c f).ppos.isLt, hdata⟩)] at hparity
  cases hparity

/-! ## The frame round trip (R150) -/

section

variable {c : Cfg} {dt : FieldValues} {fl : FlagSet} {x : Carrier} (hapart : SectionsApart c)
  (hx : frameEncode c dt fl = .ok x)

include hapart hx

/-- In its own section a frame shows the field's fragment and nothing else. -/
theorem frameEncode_and_sectionMask (f : Field) :
    x &&& sectionMask (catalog c f) = fieldFragment c dt f &&& sectionMask (catalog c f) := by
  apply and_eq_and_of_getLsbD
  intro p hp
  rw [Bool.eq_iff_iff, frameEncode_getLsbD_iff hx]
  constructor
  · rintro (⟨g, hg⟩ | ⟨k, -, rfl⟩)
    · by_cases hgf : g = f
      · exact hgf ▸ hg
      · cases hp.symm.trans (hapart.sections g f hgf p (fieldFragment_within hg))
    · cases hp.symm.trans (hapart.flags f k)
  · exact fun hf => .inl ⟨f, hf⟩

/-- At a flag position a frame shows the flags that stand there. -/
theorem frameEncode_flagPos (k : Flag) :
    x.getLsbD (flagPos c k).toNat = true ↔
      ∃ j, fl.getLsbD (flagIndex j) = true ∧ flagPos c j = flagPos c k := by
  rw [frameEncode_getLsbD_iff hx]
  constructor
  · rintro (⟨f, hf⟩ | ⟨j, hj, hpos⟩)
    · cases (fieldFragment_within hf).symm.trans (hapart.flags f k)
    · exact ⟨j, hj, (BitVec.eq_of_toNat_eq hpos).symm⟩
  · rintro ⟨j, hj, hpos⟩
    exact .inr ⟨j, hj, by rw [hpos]⟩

/-- FDEC gives back the values FENC was given, and the flags as they stand in the carrier. -/
theorem frameDecode_frameEncode (hc : c.inRange = true) :
    frameDecode c x = .ok (dt, readFlags c x flagOrder 0#5) :=
  frameDecode_of_ok fun f => sectionDecode_of_sectionEncode (hapart.wellFormed hc f)
    (sectionEncode_of_frameEncode hx f) (frameEncode_and_sectionMask hapart hx f)

end

/-- The whole frame comes back where no two flags share a position (R150). -/
theorem frameDecode_frameEncode_of_disjoint {c : Cfg} {dt : FieldValues} {fl : FlagSet} {x : Carrier}
    (hc : c.inRange = true) (hdisjoint : disjointLayout c = true)
    (hx : frameEncode c dt fl = .ok x) : frameDecode c x = .ok (dt, fl) := by
  have hapart := sectionsApart_of_disjointLayout hdisjoint
  have hflags : readFlags c x flagOrder 0#5 = fl := by
    apply flagSet_ext
    intro k
    rw [readFlags_flag, Bool.eq_iff_iff, frameEncode_flagPos hapart hx]
    exact ⟨fun ⟨j, hj, hpos⟩ => flagPos_inj hdisjoint hpos ▸ hj, fun hk => ⟨k, hk, rfl⟩⟩
  rw [frameDecode_frameEncode hapart hx hc, hflags]

/-! ## The bits of a layout (R151) -/

theorem foldl_or_getLsbD_iff (ms : List Carrier) (acc : Carrier) (p : Nat) :
    (ms.foldl (· ||| ·) acc).getLsbD p = true ↔
      acc.getLsbD p = true ∨ ∃ m ∈ ms, m.getLsbD p = true := by
  induction ms generalizing acc with
  | nil => simp
  | cons m ms ih =>
    rw [List.foldl_cons, ih, BitVec.getLsbD_or]
    simp [or_assoc]

theorem frameBits_getLsbD_iff (c : Cfg) (p : Nat) :
    (frameBits c).getLsbD p = true ↔
      (∃ f, (sectionMask (catalog c f)).getLsbD p = true) ∨ ∃ k, p = (flagPos c k).toNat := by
  rw [frameBits, foldl_or_getLsbD_iff]
  simp [layout, mem_fieldOrder, mem_flagOrder, bit_getLsbD, sectionMask, exists_or, or_and_right,
    or_assoc]

/-! ## The statements -/

/-- Settles O34: each section reads its own fragment back, and each flag has its own bit. -/
theorem frameRoundTrip : Obligations.FrameRoundTrip := by
  intro s dt fl hc hdisjoint hminute hhour hday hdow hmonth hyear
  obtain ⟨x, hx⟩ := exists_frameEncode (fieldValue_lt_max hminute hhour hday hdow hmonth hyear) fl
  exact ⟨x, answers_fenc_iff.mpr hx,
    answers_fdec_iff.mpr (frameDecode_frameEncode_of_disjoint hc hdisjoint hx)⟩

/-- A statement about some flag, flag by flag. -/
theorem exists_flag {P : Flag → Prop} :
    (∃ k, P k) ↔ P .antenna ∨ P .dstAnnounce ∨ P .dstActive ∨ P .standardTime ∨ P .leapAnnounce := by
  constructor
  · rintro ⟨k, hk⟩
    cases k <;> simp [hk]
  · rintro (h | h | h | h | h) <;> exact ⟨_, h⟩

/-- Settles O35: at 42 two flags share a position, so both come back as their OR. -/
theorem sharedStandardTimeBit : Obligations.SharedStandardTimeBit := by
  intro s dt fl hc hstd hdisjoint hminute hhour hday hdow hmonth hyear
  obtain ⟨x, hx⟩ := exists_frameEncode (fieldValue_lt_max hminute hhour hday hdow hmonth hyear) fl
  have hapart : SectionsApart s.cfg := by
    refine sectionsApart_of_disjoint hdisjoint fun k => ?_
    by_cases hk : k = .standardTime
    · exact ⟨.dstActive, by simp, by rw [hk]; exact hstd.symm⟩
    · exact ⟨k, by cases k <;> simp_all, rfl⟩
  have hread : ∀ k, (readFlags s.cfg x flagOrder 0#5).getLsbD (flagIndex k) = true ↔
      ∃ j, fl.getLsbD (flagIndex j) = true ∧ flagPos s.cfg j = flagPos s.cfg k := fun k => by
    rw [readFlags_flag, frameEncode_flagPos hapart hx]
  simp only [exists_flag, flagPos, hstd, flagIndex] at hread
  refine ⟨x, _, answers_fenc_iff.mpr hx,
    answers_fdec_iff.mpr (frameDecode_frameEncode hapart hx hc), ?_, ?_, ?_, ?_, ?_⟩ <;>
    rw [Bool.eq_iff_iff]
  · simpa using hread .antenna
  · simpa using hread .dstAnnounce
  · simpa using hread .leapAnnounce
  · simpa using hread .dstActive
  · simpa using hread .standardTime

/-- Settles O36: the other fields have the same fragments, and both frames come back whole. -/
theorem fieldsAreIndependent : Obligations.FieldsAreIndependent := by
  intro s f a b fl x y hc hdisjoint hsame hx hy
  have hx := answers_fenc_iff.mp hx
  have hy := answers_fenc_iff.mp hy
  refine ⟨fun p hp hne => ?_, a, b,
    answers_fdec_iff.mpr (frameDecode_frameEncode_of_disjoint hc hdisjoint hx),
    answers_fdec_iff.mpr (frameDecode_frameEncode_of_disjoint hc hdisjoint hy), hsame⟩
  by_contra hout
  have hmask : ¬(sectionMask (catalog s.cfg f)).getLsbD p = true := fun h =>
    hout ((sectionMask_getLsbD_iff _ p).mp h).2
  have hfrag : ∀ g, (fieldFragment s.cfg a g).getLsbD p = true ↔
      (fieldFragment s.cfg b g).getLsbD p = true := by
    intro g
    by_cases hgf : g = f
    · subst hgf
      exact iff_of_false (mt fieldFragment_within hmask) (mt fieldFragment_within hmask)
    · rw [fieldFragment_congr (hsame g hgf)]
  apply hne
  rw [Bool.eq_iff_iff, frameEncode_getLsbD_iff hx, frameEncode_getLsbD_iff hy]
  simp only [hfrag]

/-- Settles O37: the fragments are the same, and so are the other flags. -/
theorem flagsAreIndependent : Obligations.FlagsAreIndependent := by
  intro s k dt a b x y hc hdisjoint hsame hx hy
  have hx := answers_fenc_iff.mp hx
  have hy := answers_fenc_iff.mp hy
  refine ⟨fun p hp hne => ?_, a, b,
    answers_fdec_iff.mpr (frameDecode_frameEncode_of_disjoint hc hdisjoint hx),
    answers_fdec_iff.mpr (frameDecode_frameEncode_of_disjoint hc hdisjoint hy), hsame⟩
  by_contra hout
  have hflag : ∀ j, (a.getLsbD (flagIndex j) = true ∧ p = (flagPos s.cfg j).toNat) ↔
      (b.getLsbD (flagIndex j) = true ∧ p = (flagPos s.cfg j).toNat) := by
    intro j
    by_cases hjk : j = k
    · subst hjk
      exact iff_of_false (fun h => hout h.2) (fun h => hout h.2)
    · rw [hsame j hjk]
  apply hne
  rw [Bool.eq_iff_iff, frameEncode_getLsbD_iff hx, frameEncode_getLsbD_iff hy]
  simp only [hflag]

/-- Noise outside the layout reaches no section and no flag (R151). -/
theorem frameDecode_or_noise {c : Cfg} {noise : Carrier} (h : noise &&& frameBits c = 0)
    (x : Carrier) : frameDecode c (x ||| noise) = frameDecode c x := by
  have hquiet : ∀ p, (frameBits c).getLsbD p = true → (x ||| noise).getLsbD p = x.getLsbD p := by
    intro p hp
    have hnoise := congrArg (fun n => n.getLsbD p) h
    simp only [BitVec.getLsbD_and, hp, Bool.and_true] at hnoise
    rw [BitVec.getLsbD_or, hnoise]
    simp
  apply frameDecode_congr
  · intro f
    exact sectionDecode_congr (and_eq_and_of_getLsbD fun p hp =>
      hquiet p ((frameBits_getLsbD_iff c p).mpr (.inl ⟨f, hp⟩)))
  · intro k
    exact hquiet _ ((frameBits_getLsbD_iff c _).mpr (.inr ⟨k, rfl⟩))

/-- The masks do not depend on the bounds (20_memory.md R53). -/
theorem frameBits_of_printed {c : Cfg} (hminute : c.pposMinute = 31) (hhour : c.pposHour = 24)
    (hyear : c.pposYear = 1) (hstd : c.posStd = 42) : frameBits c = 0x00001E7FFFFFFFFE := by
  simp only [frameBits, layout, fieldOrder, flagOrder, List.map_cons, List.map_nil, dataMask,
    parityMask, catalog, flagPos, hminute, hhour, hyear, hstd]
  decide

/-- Settles O38: a frame's bits are those of its sections and flags, and those are all FDEC reads. -/
theorem frameBitsOutsideTheLayout : Obligations.FrameBitsOutsideTheLayout := by
  intro s
  refine ⟨fun dt fl x hx => ?_, fun c noise hnoise => ?_, frameBits_of_printed⟩
  · rw [and_eq_self_iff]
    intro p hp
    rw [frameBits_getLsbD_iff]
    obtain ⟨f, hf⟩ | ⟨k, -, hk⟩ := (frameEncode_getLsbD_iff (answers_fenc_iff.mp hx) p).mp hp
    · exact .inl ⟨f, fieldFragment_within hf⟩
    · exact .inr ⟨k, hk⟩
  · apply exec_eq_of_responseOf_eq
    rw [responseOf, responseOf, frameDecode_or_noise hnoise]

/-- At the default parity positions the protected sections have no bit among 23:10. -/
theorem protected_apart_from_date {c : Cfg} (hminute : c.pposMinute = 31) (hhour : c.pposHour = 24)
    (hyear : c.pposYear = 1) {f : Field} (hf : f = .minute ∨ f = .hour ∨ f = .year) {p : Nat}
    (hp : (sectionMask (catalog c f)).getLsbD p = true) : p < 10 ∨ 23 < p := by
  obtain ⟨-, hbit⟩ := (sectionMask_getLsbD_iff _ p).mp hp
  rw [isDataBit_catalog_iff, IsParityBit] at hbit
  obtain rfl | rfl | rfl := hf
  · simp only [catalog, fieldWidth, hminute, BitVec.reduceToNat] at hbit
    omega
  · simp only [catalog, fieldWidth, hhour, BitVec.reduceToNat] at hbit
    omega
  · simp only [catalog, fieldWidth, hyear, BitVec.reduceToNat] at hbit
    omega

/-- Settles O39: the flips reach no protected section, and the other sections cannot fail. -/
theorem dateBitsAreUnprotected : Obligations.DateBitsAreUnprotected := by
  intro s c flips dt fl hminute hhour hyear hc hflips
  obtain ⟨hsec, -⟩ := frameDecode_ok (answers_fdec_iff.mp hc)
  have hsame : ∀ f, f = .minute ∨ f = .hour ∨ f = .year →
      sectionDecode (c ^^^ flips) (catalog s.cfg f) = .ok (fieldValue dt f) := by
    intro f hf
    rw [← hsec f]
    refine sectionDecode_congr (and_eq_and_of_getLsbD fun p hp => ?_)
    have hout := protected_apart_from_date hminute hhour hyear hf hp
    have hflip : flips.getLsbD p = false := by
      rw [Bool.eq_false_iff]
      intro h
      have := hflips p h
      omega
    rw [BitVec.getLsbD_xor, hflip, Bool.xor_false]
  have hdec := frameDecode_of_passes (passes_of_protected
    (passes_of_sectionDecode_ok (hsame .minute (by simp)))
    (passes_of_sectionDecode_ok (hsame .hour (by simp)))
    (passes_of_sectionDecode_ok (hsame .year (by simp))))
  obtain ⟨hsec', -⟩ := frameDecode_ok hdec
  have hvalue : ∀ f, f = .minute ∨ f = .hour ∨ f = .year →
      fieldValue (sectionValues s.cfg (c ^^^ flips)) f = fieldValue dt f :=
    fun f hf => Except.ok.inj ((hsec' f).symm.trans (hsame f hf))
  exact ⟨_, _, answers_fdec_iff.mpr hdec, hvalue .minute (by simp), hvalue .hour (by simp),
    hvalue .year (by simp)⟩

end Sys2Proof.Machine

/-!
PROOFS. The whole machine (spec/10_state.md R20, R46; 20_memory.md R56; 60_exceptions.md R163): which
ports each operation drives, how each can fail, and the invariant of a machine state.
-/

namespace Sys2Proof.Machine

/-! ## The status of a response -/

/-- Field code 6 names no field. -/
theorem efieldCode_ne_six (f : Option Field) : efieldCode f ≠ 6 := by
  cases f with
  | none   => decide
  | some f => cases f <;> decide

/-- Every response shows a row of the status table (30_encoding.md R78). -/
theorem portsOf_status (r : Response) :
    ((portsOf r).ok = true ∧ (portsOf r).ekind = 0 ∧ (portsOf r).efield = 7) ∨
    ((portsOf r).ok = false ∧ ((portsOf r).ekind = 1 ∨ (portsOf r).ekind = 2) ∧
      (portsOf r).efield ≠ 6) := by
  cases r with
  | ok x    => exact .inl (resultPorts_status x)
  | error e => exact .inr ⟨rfl, ekindCode_cases e, efieldCode_ne_six _⟩

theorem statusLegal_portsOf (r : Response) : statusLegal (portsOf r) = true := by
  obtain ⟨hok, hkind, hfield⟩ | ⟨hok, hkind, hfield⟩ := portsOf_status r
  · simp [statusLegal, hok, hkind, hfield]
  · simpa [statusLegal, hok] using .inl ⟨hkind, hfield⟩

/-- An error shows no result (60_exceptions.md R168). -/
theorem noPartialResult_portsOf (r : Response) : noPartialResult (portsOf r) = true := by
  cases r with
  | ok x    => simp [noPartialResult, portsOf, resultPorts_status x]
  | error e => rfl

/-! ## The response of an operation that completes -/

theorem exec_next_res {i : Instr} {s t : State} (h : exec i s = .next t) :
    ∃ r, responseOf s.cfg i = some r ∧ t.res = portsOf r := by
  obtain ⟨r, hr, rfl⟩ := exec_next h
  exact ⟨r, hr, by rw [answer_eq]⟩

theorem responseOf_penc {c : Cfg} {v : Value} {n : Count} {r : Response}
    (h : responseOf c (.penc v n) = some r) : r = .ok (.pattern (pulseEncode v n.toNat)) := by
  rw [responseOf] at h
  split at h
  · exact (Option.some.inj h).symm
  · cases h

theorem responseOf_pdec {c : Cfg} {b : Pattern} {n : Count} {r : Response}
    (h : responseOf c (.pdec b n) = some r) :
    Count.legal n = true ∧ r = .ok (.value (pulseDecode b n.toNat)) := by
  rw [responseOf] at h
  split at h
  · next hn => exact ⟨hn, (Option.some.inj h).symm⟩
  · cases h

/-- A well-formed operation has a response: only a reserved count has none. -/
theorem responseOf_of_wellFormed {i : Instr} (h : i.wellFormed = true) (c : Cfg) :
    ∃ r, responseOf c i = some r := by
  cases i with
  | penc v n   => exact ⟨_, if_pos h⟩
  | pdec b n   => exact ⟨_, if_pos h⟩
  | senc v d   => exact ⟨_, rfl⟩
  | sdec x d   => exact ⟨_, rfl⟩
  | fenc dt fl => exact ⟨_, rfl⟩
  | fdec x     => exact ⟨_, rfl⟩

section

variable {α : Type} {x : Except Error α} {g : α → Result}

/-- A computation whose response shows `ok` has ended in a result, and the ports drive it. -/
theorem ports_of_success (h : (portsOf (x.map g)).ok = true) :
    ∃ a, x = .ok a ∧ portsOf (x.map g) = resultPorts (g a) := by
  cases x with
  | ok a    => exact ⟨a, rfl, rfl⟩
  | error e => cases h

/-- A computation whose response does not show `ok` has ended in an error, and the ports report it. -/
theorem ports_of_failure (h : (portsOf (x.map g)).ok = false) :
    ∃ e, x = .error e ∧ portsOf (x.map g) = errorPorts e := by
  cases x with
  | ok a    => cases (resultPorts_status (g a)).1.symm.trans h
  | error e => exact ⟨e, rfl, rfl⟩

end

/-- What a success drives, and no other result port (30_encoding.md R79). -/
theorem carrier_drives_rCar {x : Except Error Carrier}
    (h : (portsOf (x.map Result.carrier)).ok = true) :
    portsOf (x.map Result.carrier) =
      { succeeded with rCar := (portsOf (x.map Result.carrier)).rCar } := by
  obtain ⟨a, -, hports⟩ := ports_of_success h
  rw [hports, resultPorts_carrier]

theorem value_drives_rVal {x : Except Error Value} (h : (portsOf (x.map Result.value)).ok = true) :
    portsOf (x.map Result.value) =
      { succeeded with rVal := (portsOf (x.map Result.value)).rVal } := by
  obtain ⟨a, -, hports⟩ := ports_of_success h
  rw [hports, resultPorts_value]

theorem frame_drives_rDt_rFl {x : Except Error (FieldValues × FlagSet)}
    (h : (portsOf (x.map fun y => Result.frame y.1 y.2)).ok = true) :
    portsOf (x.map fun y => Result.frame y.1 y.2) =
      { succeeded with
        rDt := (portsOf (x.map fun y => Result.frame y.1 y.2)).rDt
        rFl := (portsOf (x.map fun y => Result.frame y.1 y.2)).rFl } := by
  obtain ⟨a, -, hports⟩ := ports_of_success h
  rw [hports, resultPorts_frame]

/-! ## The errors of each operation (60_exceptions.md R163) -/

theorem sectionEncode_error {v : Value} {d : SectionDesc} {e : Error}
    (h : sectionEncode v d = .error e) : e = .range none := by
  unfold sectionEncode at h
  split at h
  · exact (Except.error.inj h).symm
  · cases h

theorem sectionDecode_error {c : Carrier} {d : SectionDesc} {e : Error}
    (h : sectionDecode c d = .error e) : e = .parity none := by
  unfold sectionDecode at h
  split at h
  · exact (Except.error.inj h).symm
  · cases h

theorem frameEncode_error {c : Cfg} {dt : FieldValues} {fl : FlagSet} {e : Error}
    (h : frameEncode c dt fl = .error e) : ∃ f, e = .range (some f) := by
  unfold frameEncode at h
  cases hfields : encodeFields c dt fieldOrder 0#64 with
  | ok x    => rw [hfields] at h; cases h
  | error e' =>
    rw [hfields] at h
    obtain ⟨f, -, rfl⟩ := encodeFields_error hfields
    exact ⟨f, (Except.error.inj h).symm⟩

theorem frameDecode_error {c : Cfg} {x : Carrier} {e : Error} (h : frameDecode c x = .error e) :
    ∃ f, (catalog c f).pen = true ∧ e = .parity (some f) := by
  unfold frameDecode at h
  cases hfields : decodeFields c x fieldOrder FieldValues.zero with
  | ok dt   => rw [hfields] at h; cases h
  | error e' =>
    rw [hfields] at h
    obtain ⟨f, -, hpen, rfl⟩ := decodeFields_error hfields
    exact ⟨f, hpen, (Except.error.inj h).symm⟩

theorem efieldCode_some_le (f : Field) : efieldCode (some f) ≤ 5 := by cases f <;> decide

/-! ## The invariant -/

theorem inv_iff (s : State) :
    s.inv = true ↔ s.cfg.inRange = true ∧ statusLegal s.res = true ∧ noPartialResult s.res = true ∧
      valuesRepresentable s.res = true := by
  simp [State.inv, and_assoc]

theorem valuesRepresentable_iff (p : ResultPorts) :
    valuesRepresentable p = true ↔
      p.rVal.toNat ≤ 165 ∧ ∀ f, (fieldValue p.rDt f).toNat ≤ printedSum (fieldWidth f) := by
  simp [valuesRepresentable, mem_fieldOrder]

theorem fieldValue_zero_le (f : Field) (n : Nat) : (fieldValue FieldValues.zero f).toNat ≤ n := by
  have : fieldValue FieldValues.zero f = 0 := by cases f <;> rfl
  rw [this]
  exact Nat.zero_le n

/-- Ports that drive no decoded value. -/
theorem valuesRepresentable_of_zero {p : ResultPorts} (hval : p.rVal = 0)
    (hdt : p.rDt = FieldValues.zero) : valuesRepresentable p = true := by
  rw [valuesRepresentable_iff, hval, hdt]
  exact ⟨Nat.zero_le _, fun f => fieldValue_zero_le f _⟩

theorem valuesRepresentable_value {v : Value} (h : v.toNat ≤ 165) :
    valuesRepresentable (resultPorts (.value v)) = true :=
  (valuesRepresentable_iff _).mpr ⟨h, fun f => fieldValue_zero_le f _⟩

theorem valuesRepresentable_frame {dt : FieldValues} {fl : FlagSet}
    (h : ∀ f, (fieldValue dt f).toNat ≤ printedSum (fieldWidth f)) :
    valuesRepresentable (resultPorts (.frame dt fl)) = true :=
  (valuesRepresentable_iff _).mpr ⟨Nat.zero_le _, h⟩

theorem valuesRepresentable_error (e : Error) : valuesRepresentable (errorPorts e) = true :=
  valuesRepresentable_of_zero rfl rfl

/-- Every operation's response shows representable values (40_pulse_codec.md R103). -/
theorem valuesRepresentable_portsOf {c : Cfg} {i : Instr} {r : Response}
    (h : responseOf c i = some r) : valuesRepresentable (portsOf r) = true := by
  cases i with
  | penc v n =>
    obtain rfl := responseOf_penc h
    exact valuesRepresentable_of_zero rfl rfl
  | pdec b n =>
    obtain ⟨hn, rfl⟩ := responseOf_pdec h
    have hle := (Count.legal_iff n).mp hn
    exact valuesRepresentable_value ((pulseDecode_le hle b).trans (printedSum_le hle))
  | senc v d =>
    obtain rfl := Option.some.inj h
    cases sectionEncode v d with
    | ok x    => exact valuesRepresentable_of_zero rfl rfl
    | error e => exact valuesRepresentable_error e
  | sdec x d =>
    obtain rfl := Option.some.inj h
    cases hx : sectionDecode x d with
    | ok v    =>
      exact valuesRepresentable_value ((sectionDecode_le hx).trans (printedSum_le (activeCount_le d)))
    | error e => exact valuesRepresentable_error e
  | fenc dt fl =>
    obtain rfl := Option.some.inj h
    cases frameEncode c dt fl with
    | ok x    => exact valuesRepresentable_of_zero rfl rfl
    | error e => exact valuesRepresentable_error e
  | fdec x =>
    obtain rfl := Option.some.inj h
    cases hx : frameDecode c x with
    | ok y    => exact valuesRepresentable_frame (frameDecode_le hx)
    | error e => exact valuesRepresentable_error e

/-! ## The statements -/

/-- Settles O48: a step leaves the configuration alone, and every part of the invariant that is about
the result ports holds of every response. -/
theorem stepKeepsTheInvariant : Obligations.StepKeepsTheInvariant := by
  intro s t hinv h
  obtain ⟨hcfg, -⟩ := (inv_iff s).mp hinv
  obtain ⟨i, r, -, hr, rfl⟩ := step_next h
  rw [answer_eq]
  exact (inv_iff _).mpr
    ⟨hcfg, statusLegal_portsOf r, noPartialResult_portsOf r, valuesRepresentable_portsOf hr⟩

/-- Settles O42: the errors of the section functions and, tagged with their field, of the loops. -/
theorem errorsOfEachOperation : Obligations.ErrorsOfEachOperation := by
  intro s t
  refine ⟨fun v n h => ?_, fun b n h => ?_, fun v d h hok => ?_, fun c d h hok => ?_,
    fun dt fl h hok => ?_, fun c h hok => ?_⟩ <;> obtain ⟨r, hr, hres⟩ := exec_next_res h <;>
    rw [hres]
  · obtain rfl := responseOf_penc hr
    rfl
  · obtain ⟨-, rfl⟩ := responseOf_pdec hr
    rfl
  · obtain rfl := Option.some.inj hr
    obtain ⟨e, he, hports⟩ := ports_of_failure (hres ▸ hok)
    rw [hports, sectionEncode_error he]
    exact ⟨rfl, rfl⟩
  · obtain rfl := Option.some.inj hr
    obtain ⟨e, he, hports⟩ := ports_of_failure (hres ▸ hok)
    rw [hports, sectionDecode_error he]
    exact ⟨rfl, rfl⟩
  · obtain rfl := Option.some.inj hr
    obtain ⟨e, he, hports⟩ := ports_of_failure (hres ▸ hok)
    obtain ⟨f, rfl⟩ := frameEncode_error he
    rw [hports]
    exact ⟨rfl, efieldCode_some_le f⟩
  · obtain rfl := Option.some.inj hr
    obtain ⟨e, he, hports⟩ := ports_of_failure (hres ▸ hok)
    obtain ⟨f, hpen, rfl⟩ := frameDecode_error he
    rw [hports]
    obtain rfl | rfl | rfl := (catalog_pen s.cfg f).mp hpen
    · exact ⟨rfl, .inl rfl⟩
    · exact ⟨rfl, .inr (.inl rfl)⟩
    · exact ⟨rfl, .inr (.inr rfl)⟩

/-- Settles O44: an answer changes the result ports alone, and those of a success drive its result. -/
theorem operationsDriveOnlyTheirResults : Obligations.OperationsDriveOnlyTheirResults := by
  intro i s t h
  obtain ⟨r, hr, rfl⟩ := exec_next h
  refine ⟨answer_cfg s r, answer_req s r, ?_⟩
  rw [answer_eq]
  refine ⟨?_, ?_, ?_, ?_, ?_, ?_⟩
  · rintro v n rfl
    obtain rfl := responseOf_penc hr
    rfl
  · rintro b n rfl
    obtain ⟨-, rfl⟩ := responseOf_pdec hr
    rfl
  · rintro v d rfl hok
    obtain rfl := Option.some.inj hr
    exact carrier_drives_rCar hok
  · rintro c d rfl hok
    obtain rfl := Option.some.inj hr
    exact value_drives_rVal hok
  · rintro dt fl rfl hok
    obtain rfl := Option.some.inj hr
    exact carrier_drives_rCar hok
  · rintro c rfl hok
    obtain rfl := Option.some.inj hr
    exact frame_drives_rDt_rFl hok

theorem step_next_req {s t : State} (h : step s = .next t) : t.req = s.req := by
  obtain ⟨i, r, -, -, rfl⟩ := step_next h
  exact answer_req s r

/-- Settles O45: a step reads the request and the configuration alone, and writes neither. -/
theorem transactionsDoNotInteract : Obligations.TransactionsDoNotInteract :=
  fun _ _ hreq hcfg => ⟨step_congr hreq hcfg, fun _ h => ⟨step_next_req h, step_next_cfg h⟩⟩

/-- Settles O46: both later states hold the request and the configuration the first step read. -/
theorem transactionsAreIdempotent : Obligations.TransactionsAreIdempotent := by
  intro s t u r ht hu
  have hreq : t.req = s.req := step_next_req ht
  have hcfg : t.cfg = s.cfg := step_next_cfg ht
  have hcfg' : u.cfg = s.cfg := (step_next_cfg hu).trans hcfg
  refine ⟨?_, hreq, hcfg, (step_congr hreq hcfg).trans ht, ?_⟩
  · obtain hok | ⟨k, f, -, hfailed⟩ := Exceptions.noPartialResult s t ht
    · exact .inl hok
    · exact .inr ⟨k, f, hfailed⟩
  · exact (step_congr (s := { u with req := s.req }) (s' := s) rfl hcfg').trans ht

/-- A request whose code and count are not reserved decodes to an operation. -/
theorem exists_decode_ok {r : Request} (hop : r.op.toNat ≤ 5) (hn : r.op.toNat ≤ 1 → r.n ≤ 8) :
    ∃ i, decode r = .ok i := by
  obtain h | h | h | h | h | h | h | h := opcode_cases r.op
  · exact ⟨_, decode_penc h (hn (by rw [h]; decide))⟩
  · exact ⟨_, decode_pdec h (hn (by rw [h]; decide))⟩
  · exact ⟨_, decode_senc h⟩
  · exact ⟨_, decode_sdec h⟩
  · exact ⟨_, decode_fenc h⟩
  · exact ⟨_, decode_fdec h⟩
  · rw [h] at hop; exact absurd hop (by decide)
  · rw [h] at hop; exact absurd hop (by decide)

/-- Settles O51: such a request decodes to a well-formed operation, which has a response. -/
theorem everyLegalRequestIsAnswered : Obligations.EveryLegalRequestIsAnswered := by
  intro s r hop hn
  obtain ⟨i, hi⟩ := exists_decode_ok hop hn
  obtain ⟨hwf, -⟩ := decode_ok hi
  obtain ⟨x, hx⟩ := responseOf_of_wellFormed hwf s.cfg
  exact ⟨portsOf x, (stepAnswers_iff r s _).mpr ⟨i, hi, by rw [hx]; rfl⟩, portsOf_status x⟩

/-- Settles O49: the default bounds are in range, and ports at 0 show no value. -/
theorem resetHasTheInvariant : Obligations.ResetHasTheInvariant :=
  (inv_iff _).mpr ⟨by decide, by decide, by decide, valuesRepresentable_of_zero rfl rfl⟩

/-- Settles O50: `POS_STD` stands in none of the values but its own flag position. -/
theorem resetLeavesTheTables : Obligations.ResetLeavesTheTables :=
  ⟨fun i _ => weight_toNat i, rfl, rfl, rfl, rfl, rfl, rfl, rfl, rfl, rfl, rfl, rfl⟩

end Sys2Proof.Machine
